-- ==== Sys2Proof/Word.lean ====
section
/-! DEFINITION. The word types of BADGE-CODEC (00_scope.md R6, R8). -/

namespace Sys2Proof

/-- A byte: what every host access moves (R50). -/
abbrev Byte := BitVec 8

/-- A 16-bit register value: ILEN, ARG, CPOS, CCNT (R22). -/
abbrev Half := BitVec 16

/-- A host address: 17 bits, every value decoded (R50). -/
abbrev HostAddr := BitVec 17

/-- A 16-byte block: byte `i` is block byte `b_i` (R56). -/
abbrev Block := Vector Byte 16

end Sys2Proof
end

