-- ==== Sys2Proof/Syntax.lean ====
section
/-! DEFINITION. The 24 operations (30_encoding.md R72), the seven badge commands (R73), and the host-script
notation of R77 and R78. -/

namespace Sys2Proof

/-- One constructor per row of the opcode map (R72). No operation has an operand field (R70). -/
inductive Instr where
  | nop
  | enc | dec
  | gpack | gunpack
  | frame | framee
  | crst | chunk | chunke
  | cmdLedon | cmdLedoff | cmdMode | cmdSpeed | cmdLight | cmdDats | cmdDatcp
  | cmdpLedon | cmdpLedoff | cmdpMode | cmdpSpeed | cmdpLight | cmdpDats | cmdpDatcp
  deriving DecidableEq, Repr

/-- The closed list of badge commands, in the order of their ids (R73). -/
inductive Command where
  | ledon | ledoff | mode | speed | light | dats | datcp
  deriving DecidableEq, Repr

/-- A label of a host script. The names of R77 are numbered. DESIGN CHOICE, log entry 8. -/
abbrev Label := Nat

/-- One item of what the host and the platform do, in order: the forms of R77 after expansion, and the two
events of the platform (R250, R236). -/
inductive HostItem where
  /-- `wr A, V`: HostWrite(A, V) (R77). -/
  | wr (a : HostAddr) (v : Byte)
  /-- `rd A`: HostRead(A) (R77). -/
  | rd (a : HostAddr)
  /-- `LABEL:` (R77). -/
  | label (l : Label)
  /-- `jz A, M, LABEL`: HostRead(A), and jump if `(byte & M) = 0` (R77). -/
  | jz (a : HostAddr) (m : Byte) (l : Label)
  /-- `jnz A, M, LABEL`: HostRead(A), and jump if `(byte & M) ≠ 0` (R77). -/
  | jnz (a : HostAddr) (m : Byte) (l : Label)
  /-- `halt`: the end of the host program (R77). -/
  | halt
  /-- The platform asserts reset here, between two accesses (R250). Log entry 5. -/
  | platformReset
  /-- The power goes and comes back here (R250, R236). Log entry 5. -/
  | powerCycle
  deriving DecidableEq, Repr

/-- One line of a host script as it is written: the forms of R77, and the pseudo-instructions of R78. -/
inductive ScriptLine where
  | wr (a : HostAddr) (v : Byte)
  | rd (a : HostAddr)
  /-- `op MNEMONIC` (R77). -/
  | op (i : Instr)
  | label (l : Label)
  | jz (a : HostAddr) (m : Byte) (l : Label)
  | jnz (a : HostAddr) (m : Byte) (l : Label)
  | halt
  | setilen (n : Half)
  | setarg (n : Half)
  | load (off : Nat) (bytes : List Byte)
  | input (bytes : List Byte)
  | rdstat
  | rdout
  | jmp (l : Label)
  deriving DecidableEq, Repr

end Sys2Proof
end

