-- ==== Sys2Proof/WellFormed.lean ====
section
/-! DEFINITION. What is well formed: an operation (always, R70), a script line whose bytes fit (R78), and a
script whose jumps name one label each (R77). -/

namespace Sys2Proof

/-- Every operation is well formed: "there is … no operand field" (R70), so nothing can be out of range. -/
def Instr.wf : Instr → Bool
  | _ => true

/-- A line's bytes fit: `load` stays inside IBUF, and `input` has a length ILEN can hold (R78, R6). Log entry 9. -/
def ScriptLine.wf : ScriptLine → Bool
  | .load off bytes => decide (off + bytes.length ≤ 65536)
  | .input bytes => decide (bytes.length ≤ 65535)
  | _ => true

/-- The label an item defines. -/
def HostItem.defines : HostItem → Option Label
  | .label l => some l
  | _ => none

/-- The label an item may jump to. -/
def HostItem.target : HostItem → Option Label
  | .jz _ _ l => some l
  | .jnz _ _ l => some l
  | _ => none

/-- The labels a script defines, in order. -/
def scriptLabels (p : List HostItem) : List Label := p.filterMap HostItem.defines

/-- No label is defined twice. -/
def labelsDistinct (p : List HostItem) : Bool := decide (scriptLabels p).Nodup

/-- Every jump names a label the script defines. -/
def targetsDefined (p : List HostItem) : Bool :=
  (p.filterMap HostItem.target).all fun l => (scriptLabels p).contains l

/-- A well-formed script: each jump has exactly one place to go. -/
def scriptWf (p : List HostItem) : Bool := labelsDistinct p && targetsDefined p

end Sys2Proof
end

