-- ==== Sys2Proof/Decode.lean ====
section
/-! DEFINITION. Decoding and encoding an operation. The decoder is the opcode map of R72, compared on all 8 bits
(R71); the encoder is written apart from it, from the fields MAJ, SUB, D, E, P and CID of R70 and R73. -/

namespace Sys2Proof

/-- Why bytes are not an operation. -/
inductive Reject where
  /-- There is no byte to decode. -/
  | noByte
  /-- One of the 232 reserved opcodes (R74). -/
  | reserved (op : Byte)
  deriving DecidableEq, Repr

/-- The opcode map, row by row (R72). -/
def opcodeMap : List (Byte × Instr) :=
  [(0x00, .nop), (0x10, .enc), (0x11, .dec), (0x20, .gpack), (0x21, .gunpack), (0x30, .frame), (0x31, .framee),
   (0x40, .crst), (0x41, .chunk), (0x42, .chunke)] ++
  [(0x50, .cmdLedon), (0x51, .cmdLedoff), (0x52, .cmdMode), (0x53, .cmdSpeed), (0x54, .cmdLight), (0x55, .cmdDats),
   (0x56, .cmdDatcp)] ++
  [(0x58, .cmdpLedon), (0x59, .cmdpLedoff), (0x5A, .cmdpMode), (0x5B, .cmdpSpeed), (0x5C, .cmdpLight),
   (0x5D, .cmdpDats), (0x5E, .cmdpDatcp)]

/-- "The lookup compares all 8 bits" (R71). -/
def decodeByte (op : Byte) : Option Instr := (opcodeMap.find? fun row => row.1 == op).map Prod.snd

/-- Decoding a byte string: every operation is one byte (R70); the rest of the string is handed back. -/
def decode : List Byte → Except Reject (Instr × List Byte)
  | [] => .error .noByte
  | op :: rest =>
    match decodeByte op with
    | some i => .ok (i, rest)
    | none => .error (.reserved op)

/-- CID = op[2:0] of a command (R73). -/
def Command.cid : Command → BitVec 3
  | .ledon => 0
  | .ledoff => 1
  | .mode => 2
  | .speed => 3
  | .light => 4
  | .dats => 5
  | .datcp => 6

/-- MAJ = op[7:4], the operation group (R70, R72). -/
def Instr.maj : Instr → BitVec 4
  | .nop => 0
  | .enc | .dec => 1
  | .gpack | .gunpack => 2
  | .frame | .framee => 3
  | .crst | .chunk | .chunke => 4
  | .cmdLedon | .cmdLedoff | .cmdMode | .cmdSpeed | .cmdLight | .cmdDats | .cmdDatcp => 5
  | .cmdpLedon | .cmdpLedoff | .cmdpMode | .cmdpSpeed | .cmdpLight | .cmdpDats | .cmdpDatcp => 5

/-- SUB of the cipher and frame groups: `0b000` and the selecting bit, D or E (R70). -/
def flagSub (b : BitVec 1) : BitVec 4 := 0b000#3 ++ b

/-- SUB of the command group: P, then CID (R70). -/
def commandSub (p : BitVec 1) (c : Command) : BitVec 4 := p ++ c.cid

/-- SUB = op[3:0] (R70, R72). -/
def Instr.sub : Instr → BitVec 4
  | .nop => 0
  | .enc => flagSub 0
  | .dec => flagSub 1
  | .gpack => 0
  | .gunpack => 1
  | .frame => flagSub 0
  | .framee => flagSub 1
  | .crst => 0
  | .chunk => 1
  | .chunke => 2
  | .cmdLedon => commandSub 0 .ledon
  | .cmdLedoff => commandSub 0 .ledoff
  | .cmdMode => commandSub 0 .mode
  | .cmdSpeed => commandSub 0 .speed
  | .cmdLight => commandSub 0 .light
  | .cmdDats => commandSub 0 .dats
  | .cmdDatcp => commandSub 0 .datcp
  | .cmdpLedon => commandSub 1 .ledon
  | .cmdpLedoff => commandSub 1 .ledoff
  | .cmdpMode => commandSub 1 .mode
  | .cmdpSpeed => commandSub 1 .speed
  | .cmdpLight => commandSub 1 .light
  | .cmdpDats => commandSub 1 .dats
  | .cmdpDatcp => commandSub 1 .datcp

/-- The opcode byte of an operation: MAJ, then SUB (R70). -/
def encodeByte (i : Instr) : Byte := i.maj ++ i.sub

/-- "Every operation is encoded as one byte" (R70). -/
def encode (i : Instr) : List Byte := [encodeByte i]

/-- The bytes of an opcode-table word, the first at the lowest place: the bits above `nbits` are 0. -/
def tableBytes (nbits w : Nat) : List Byte :=
  (List.range (max 1 ((nbits + 7) / 8))).map fun k => BitVec.ofNat 8 ((w % 2 ^ nbits) / 2 ^ (8 * k))

/-- The operation the decoder reads from an opcode-table word. -/
def decodeTableWord (nbits w : Nat) : Option Instr :=
  match decode (tableBytes nbits w) with
  | .ok (i, _) => some i
  | .error _ => none

end Sys2Proof
end

