-- ==== Sys2Proof/Config.lean ====
section
/-! DEFINITION. What an instance of the block fixes, and what the spec leaves free: the key (R5, R31) and
the contents of IBUF at power-up (R251). Both are opaque: nothing can evaluate them or prove a value of them. -/

namespace Sys2Proof.Config

/-- KEY, "a 128-bit (16-byte) configuration parameter of the block" (R5). No source gives its value, and the model
assumes none. An instance carries its own KEY (Machine.State.key); this is the one `State.reset` carries.
DESIGN CHOICE, log entry 2. -/
opaque key : Block

/-- What IBUF byte `i` holds after power-up number `n` until the host writes it: "a free draw, under no law"
(R251). DESIGN CHOICE in form (a function of the power-up and the index), log entry 3. -/
opaque ibufDraw : (n i : Nat) → Byte

/-- IBUF holds 65536 bytes (R6, R28). -/
def ibufSize : Nat := 65536

/-- The frame payload and the chunk data are at most 15 bytes (R6, R160). -/
def maxPayload : Nat := 15

end Sys2Proof.Config
end

