-- ==== Sys2Proof/Machine/State.lean ====
section
/-! DEFINITION. The state of the block (10_state.md R20-R35), the host's side of its port, and the reasons a step
can stop. -/

namespace Sys2Proof.Machine

/-- STATUS.ERR by the names of R220. The values 7 to 15 are never produced (R220), so no constructor stands for
them. The numbers are `ErrCode.code`. -/
inductive ErrCode where
  | ok | blockLen | tooLarge | glyphLen | glyphPad | exhausted | illegal
  deriving DecidableEq, Repr

/-- Everything the machine holds. -/
structure State where
  /-- OPR, the opcode register: the last value the host wrote to it (R23). -/
  opr : Byte
  /-- STATUS.ERR: the outcome of the most recent operation (R24). -/
  err : ErrCode
  /-- STATUS.LAST: the most recent operation emitted the final chunk (R24). -/
  last : Bool
  /-- ILEN, the count of valid input bytes (R25). -/
  ilen : Half
  /-- ARG, the argument of the command operations (R26). -/
  arg : Half
  /-- OLEN, the count of valid output bytes (R27). -/
  olen : Byte
  /-- OBUF, the output buffer (R27). -/
  obuf : Block
  /-- CPOS, the index of the first payload byte not yet emitted (R29). -/
  cpos : Half
  /-- CCNT, the number of chunks emitted (R30). -/
  ccnt : Half
  /-- IBUF (R28): the bytes written since power-up, as (index, byte) in rising order of index. -/
  ibuf : List Host.Cell
  /-- The MODEL's own: how many power cycles have passed. A byte of IBUF that is not listed reads as the free
  value `Config.ibufDraw powerUps index` (R251). Log entry 3. -/
  powerUps : Nat
  /-- KEY (R5, R31): the instance's configuration, never changed. Log entry 2. -/
  key : Block
  /-- The host's script (R77) with the platform's events. Log entry 1. -/
  script : List HostItem
  /-- The host's position in its script. Log entry 1. -/
  hostPos : Nat
  /-- The bytes HostRead has returned to the host, oldest first (R50). Log entry 6. -/
  trace : List Byte
  deriving DecidableEq, Repr

/-- Why a run stops. No operation of the block faults: "the block reports an error" in STATUS (R221, R223). -/
inductive Fault where
  /-- Raised by the host's own `jz` or `jnz`, when it is taken to a label the script does not define: R77 gives such
  a script no meaning. Safe: the model stops where the spec says nothing. Log entry 7. -/
  | undefinedLabel (l : Label)
  deriving DecidableEq, Repr

/-- Why an instruction has no meaning. -/
inductive Refusal where
  /-- Raised by an arm of `exec` whose instruction has no meaning yet, under its mnemonic. Safe. No arm raises it:
  all 24 operations are modelled. -/
  | notModelled (mnemonic : String)
  deriving DecidableEq, Repr

/-- The machine right after power-up (R35, R250): every register 0, OBUF zero, no IBUF byte written, KEY as the
instance has it. The host's side is empty: a script is loaded from outside. DESIGN CHOICE for the model's own
fields, log entries 1, 2, 3 and 6. -/
def State.reset : State where
  opr := 0x00
  err := .ok
  last := false
  ilen := 0x0000
  arg := 0x0000
  olen := 0x00
  obuf := Vector.replicate 16 0x00
  cpos := 0x0000
  ccnt := 0x0000
  ibuf := []
  powerUps := 0
  key := Config.key
  script := []
  hostPos := 0
  trace := []

end Sys2Proof.Machine
end

