-- ==== Sys2Proof/Machine/Ops.lean ====
section
/-! DEFINITION. The named operations over IBUF, OBUF and the status: reading and writing a byte of IBUF (R28, R251),
`Out` (R9, R27), `raise Error` (R221), the success status, the frame (R160), and reset (R250). -/

namespace Sys2Proof.Machine

/-! Bytes and bits. -/

/-- Bits [15:8] of a 16-bit register (R54). -/
def hiByte (v : Half) : Byte := v.extractLsb' 8 8

/-- Bits [7:0] of a 16-bit register (R54). -/
def loByte (v : Half) : Byte := v.extractLsb' 0 8

/-- Replacing bits [15:8] only (R25, R255). -/
def setHiByte (v : Half) (b : Byte) : Half := (b.setWidth 16 <<< 8) ||| (loByte v).setWidth 16

/-- Replacing bits [7:0] only (R25, R255). -/
def setLoByte (v : Half) (b : Byte) : Half := ((hiByte v).setWidth 16 <<< 8) ||| b.setWidth 16

/-- The byte whose only bit that can be set is bit `k`, and it is `b`. -/
def bitAt (b : Bool) (k : Nat) : Byte := (BitVec.ofBool b).setWidth 8 <<< k

/-- The byte whose bit `k` is `f k` (R8: bit 0 is the least significant). -/
def byteOfBits (f : Nat → Bool) : Byte :=
  bitAt (f 7) 7 ||| bitAt (f 6) 6 ||| bitAt (f 5) 5 ||| bitAt (f 4) 4 |||
    bitAt (f 3) 3 ||| bitAt (f 2) 2 ||| bitAt (f 1) 1 ||| bitAt (f 0) 0

/-- The first 16 bytes of a byte string, 0x00 past its end. -/
def blockOfBytes (bytes : List Byte) : Block := Vector.ofFn fun i => bytes.getD i.val 0

/-! IBUF: a list of the bytes written since power-up. -/

/-- What the list holds at an index. -/
def Memory.lookup : List Host.Cell → Nat → Option Byte
  | [], _ => none
  | (j, v) :: rest, i => if j = i then some v else Memory.lookup rest i

/-- Writing one byte: the list stays in rising order, one entry an index. -/
def Memory.insert : List Host.Cell → Nat → Byte → List Host.Cell
  | [], i, v => [(i, v)]
  | (j, w) :: rest, i, v =>
    if i < j then (i, v) :: (j, w) :: rest
    else if i = j then (i, v) :: rest
    else (j, w) :: Memory.insert rest i v

/-- Indexes strictly rise from `lo` on and stay inside IBUF. -/
def Memory.risingFrom : Nat → List Host.Cell → Bool
  | _, [] => true
  | lo, (j, _) :: rest => decide (lo ≤ j) && decide (j < Config.ibufSize) && Memory.risingFrom (j + 1) rest

/-- The canonical form: indexes strictly rise and are below 65536. An entry is a byte the host has written; an unlisted
index holds no value of the list's (its reading is a free draw), so no entry can equal it. Log entry 4. -/
def Memory.wf (m : List Host.Cell) : Bool := Memory.risingFrom 0 m

/-- `IBUF[i]`: the byte written, else the power-up draw (R28, R251). -/
def readIbuf (s : State) (i : Nat) : Byte :=
  match Memory.lookup s.ibuf i with
  | some v => v
  | none => Config.ibufDraw s.powerUps i

/-- `IBUF[i] <- v`, by the host only (R28). -/
def writeIbuf (s : State) (i : Nat) (v : Byte) : State := { s with ibuf := Memory.insert s.ibuf i v }

/-- `IBUF[start..start+n-1]` (R9). -/
def ibufSlice (s : State) (start n : Nat) : List Byte := (List.range n).map fun k => readIbuf s (start + k)

/-- `OBUF[j]`, 0x00 past its 16 bytes (R27). -/
def readObuf (s : State) (j : Nat) : Byte := s.obuf.toList.getD j 0x00

/-! What operations write. -/

/-- `Out(s)`: the bytes, zeros up to 16, and OLEN (R9, R27). -/
def outBytes (bytes : List Byte) (s : State) : State :=
  { s with obuf := blockOfBytes bytes, olen := BitVec.ofNat 8 bytes.length }

/-- `ERR <- 0; LAST <- 0`: the status of a success that emits no final chunk. -/
def succeed (s : State) : State := { s with err := .ok, last := false }

/-- `raise Error(code)`: `ERR <- code`, `LAST <- 0`, "and nothing else" (R9, R221). It is what this block has in the
place of an exception: no control transfer, no saved state, no mode change (R223). -/
def raiseError (e : ErrCode) (s : State) : State := { s with err := e, last := false }

/-- `Frame(p) = [N] ++ p ++ zeros(15 - N)`, for `N = len(p) ≤ 15` (R160). -/
def frameBytes (p : List Byte) : List Byte :=
  BitVec.ofNat 8 p.length :: (p ++ List.replicate (Config.maxPayload - p.length) 0x00)

/-! Reset, by the platform. -/

/-- Reset: every register to its value of R35, OBUF zero; IBUF and KEY keep theirs (R250, R251). The host's side is
not part of the block and keeps its place. -/
def resetBlock (s : State) : State :=
  { s with
    opr := 0x00, err := .ok, last := false, ilen := 0x0000, arg := 0x0000, olen := 0x00,
    obuf := Vector.replicate 16 0x00, cpos := 0x0000, ccnt := 0x0000 }

/-- A power cycle: the registers as after reset, and IBUF unspecified again, with a fresh draw (R236, R251). -/
def powerCycleBlock (s : State) : State :=
  { resetBlock s with ibuf := [], powerUps := s.powerUps + 1 }

end Sys2Proof.Machine
end

