-- ==== Sys2Proof/Machine/Aes.lean ====
section
/-! DEFINITION. AES-128 as 40_cipher.md section 1 gives it (R100-R114; the spec marks those rules "from general
knowledge", log entry 10). The state's byte in row `r`, column `c` is byte `r + 4c` of the block (R101). -/

namespace Sys2Proof.Machine.Aes

/-! Field arithmetic (R102). -/

/-- `xtime(a)`: doubling, reduced by 0x11B (R102). -/
def xtime (a : Byte) : Byte := (a <<< 1) ^^^ (if a.msb then (0x1b : Byte) else 0x00)

/-- `gmulBits n a b` adds `xtime^k(a)` over the set bits `k < n` of `b`, lowest first (R102). -/
def gmulBits : Nat → Byte → Byte → Byte
  | 0, _, _ => 0
  | n + 1, a, b => (if b.getLsbD 0 then a else 0) ^^^ gmulBits n (xtime a) (b >>> 1)

/-- Multiplication in GF(2^8) (R102). -/
def gmul (a b : Byte) : Byte := gmulBits 8 a b

/-! The S-box and its inverse (R104, R112). -/

/-- The table of R104, one list a row. -/
def sboxTable : List Byte :=
  [0x63, 0x7c, 0x77, 0x7b, 0xf2, 0x6b, 0x6f, 0xc5, 0x30, 0x01, 0x67, 0x2b, 0xfe, 0xd7, 0xab, 0x76] ++
  [0xca, 0x82, 0xc9, 0x7d, 0xfa, 0x59, 0x47, 0xf0, 0xad, 0xd4, 0xa2, 0xaf, 0x9c, 0xa4, 0x72, 0xc0] ++
  [0xb7, 0xfd, 0x93, 0x26, 0x36, 0x3f, 0xf7, 0xcc, 0x34, 0xa5, 0xe5, 0xf1, 0x71, 0xd8, 0x31, 0x15] ++
  [0x04, 0xc7, 0x23, 0xc3, 0x18, 0x96, 0x05, 0x9a, 0x07, 0x12, 0x80, 0xe2, 0xeb, 0x27, 0xb2, 0x75] ++
  [0x09, 0x83, 0x2c, 0x1a, 0x1b, 0x6e, 0x5a, 0xa0, 0x52, 0x3b, 0xd6, 0xb3, 0x29, 0xe3, 0x2f, 0x84] ++
  [0x53, 0xd1, 0x00, 0xed, 0x20, 0xfc, 0xb1, 0x5b, 0x6a, 0xcb, 0xbe, 0x39, 0x4a, 0x4c, 0x58, 0xcf] ++
  [0xd0, 0xef, 0xaa, 0xfb, 0x43, 0x4d, 0x33, 0x85, 0x45, 0xf9, 0x02, 0x7f, 0x50, 0x3c, 0x9f, 0xa8] ++
  [0x51, 0xa3, 0x40, 0x8f, 0x92, 0x9d, 0x38, 0xf5, 0xbc, 0xb6, 0xda, 0x21, 0x10, 0xff, 0xf3, 0xd2] ++
  [0xcd, 0x0c, 0x13, 0xec, 0x5f, 0x97, 0x44, 0x17, 0xc4, 0xa7, 0x7e, 0x3d, 0x64, 0x5d, 0x19, 0x73] ++
  [0x60, 0x81, 0x4f, 0xdc, 0x22, 0x2a, 0x90, 0x88, 0x46, 0xee, 0xb8, 0x14, 0xde, 0x5e, 0x0b, 0xdb] ++
  [0xe0, 0x32, 0x3a, 0x0a, 0x49, 0x06, 0x24, 0x5c, 0xc2, 0xd3, 0xac, 0x62, 0x91, 0x95, 0xe4, 0x79] ++
  [0xe7, 0xc8, 0x37, 0x6d, 0x8d, 0xd5, 0x4e, 0xa9, 0x6c, 0x56, 0xf4, 0xea, 0x65, 0x7a, 0xae, 0x08] ++
  [0xba, 0x78, 0x25, 0x2e, 0x1c, 0xa6, 0xb4, 0xc6, 0xe8, 0xdd, 0x74, 0x1f, 0x4b, 0xbd, 0x8b, 0x8a] ++
  [0x70, 0x3e, 0xb5, 0x66, 0x48, 0x03, 0xf6, 0x0e, 0x61, 0x35, 0x57, 0xb9, 0x86, 0xc1, 0x1d, 0x9e] ++
  [0xe1, 0xf8, 0x98, 0x11, 0x69, 0xd9, 0x8e, 0x94, 0x9b, 0x1e, 0x87, 0xe9, 0xce, 0x55, 0x28, 0xdf] ++
  [0x8c, 0xa1, 0x89, 0x0d, 0xbf, 0xe6, 0x42, 0x68, 0x41, 0x99, 0x2d, 0x0f, 0xb0, 0x54, 0xbb, 0x16]

/-- The table of R112, one list a row. -/
def invSboxTable : List Byte :=
  [0x52, 0x09, 0x6a, 0xd5, 0x30, 0x36, 0xa5, 0x38, 0xbf, 0x40, 0xa3, 0x9e, 0x81, 0xf3, 0xd7, 0xfb] ++
  [0x7c, 0xe3, 0x39, 0x82, 0x9b, 0x2f, 0xff, 0x87, 0x34, 0x8e, 0x43, 0x44, 0xc4, 0xde, 0xe9, 0xcb] ++
  [0x54, 0x7b, 0x94, 0x32, 0xa6, 0xc2, 0x23, 0x3d, 0xee, 0x4c, 0x95, 0x0b, 0x42, 0xfa, 0xc3, 0x4e] ++
  [0x08, 0x2e, 0xa1, 0x66, 0x28, 0xd9, 0x24, 0xb2, 0x76, 0x5b, 0xa2, 0x49, 0x6d, 0x8b, 0xd1, 0x25] ++
  [0x72, 0xf8, 0xf6, 0x64, 0x86, 0x68, 0x98, 0x16, 0xd4, 0xa4, 0x5c, 0xcc, 0x5d, 0x65, 0xb6, 0x92] ++
  [0x6c, 0x70, 0x48, 0x50, 0xfd, 0xed, 0xb9, 0xda, 0x5e, 0x15, 0x46, 0x57, 0xa7, 0x8d, 0x9d, 0x84] ++
  [0x90, 0xd8, 0xab, 0x00, 0x8c, 0xbc, 0xd3, 0x0a, 0xf7, 0xe4, 0x58, 0x05, 0xb8, 0xb3, 0x45, 0x06] ++
  [0xd0, 0x2c, 0x1e, 0x8f, 0xca, 0x3f, 0x0f, 0x02, 0xc1, 0xaf, 0xbd, 0x03, 0x01, 0x13, 0x8a, 0x6b] ++
  [0x3a, 0x91, 0x11, 0x41, 0x4f, 0x67, 0xdc, 0xea, 0x97, 0xf2, 0xcf, 0xce, 0xf0, 0xb4, 0xe6, 0x73] ++
  [0x96, 0xac, 0x74, 0x22, 0xe7, 0xad, 0x35, 0x85, 0xe2, 0xf9, 0x37, 0xe8, 0x1c, 0x75, 0xdf, 0x6e] ++
  [0x47, 0xf1, 0x1a, 0x71, 0x1d, 0x29, 0xc5, 0x89, 0x6f, 0xb7, 0x62, 0x0e, 0xaa, 0x18, 0xbe, 0x1b] ++
  [0xfc, 0x56, 0x3e, 0x4b, 0xc6, 0xd2, 0x79, 0x20, 0x9a, 0xdb, 0xc0, 0xfe, 0x78, 0xcd, 0x5a, 0xf4] ++
  [0x1f, 0xdd, 0xa8, 0x33, 0x88, 0x07, 0xc7, 0x31, 0xb1, 0x12, 0x10, 0x59, 0x27, 0x80, 0xec, 0x5f] ++
  [0x60, 0x51, 0x7f, 0xa9, 0x19, 0xb5, 0x4a, 0x0d, 0x2d, 0xe5, 0x7a, 0x9f, 0x93, 0xc9, 0x9c, 0xef] ++
  [0xa0, 0xe0, 0x3b, 0x4d, 0xae, 0x2a, 0xf5, 0xb0, 0xc8, 0xeb, 0xbb, 0x3c, 0x83, 0x53, 0x99, 0x61] ++
  [0x17, 0x2b, 0x04, 0x7e, 0xba, 0x77, 0xd6, 0x26, 0xe1, 0x69, 0x14, 0x63, 0x55, 0x21, 0x0c, 0x7d]

/-- `SBOX[a]` (R104). -/
def sbox (a : Byte) : Byte := sboxTable.getD a.toNat 0

/-- `INVSBOX[a]` (R112). -/
def invSbox (a : Byte) : Byte := invSboxTable.getD a.toNat 0

/-! The round transformations. -/

/-- SubBytes (R103). -/
def subBytes (s : Block) : Block := s.map sbox

/-- InvSubBytes (R112). -/
def invSubBytes (s : Block) : Block := s.map invSbox

/-- ShiftRows: `s'[r][c] = s[r][(c + r) mod 4]` (R106). -/
def shiftRows (s : Block) : Block :=
  Vector.ofFn fun i =>
    let r := i.val % 4
    let c := i.val / 4
    s[r + 4 * ((c + r) % 4)]

/-- InvShiftRows: `s'[r][c] = s[r][(c - r) mod 4]` (R111). -/
def invShiftRows (s : Block) : Block :=
  Vector.ofFn fun i =>
    let r := i.val % 4
    let c := i.val / 4
    s[r + 4 * ((c + 4 - r) % 4)]

/-- One output row of a column transformation whose matrix is circulant: row `r` of the matrix is `k0 k1 k2 k3`
rotated right by `r`, so the coefficient `k_j` meets the column's byte `(r + j) mod 4` (the four equations of R107
and of R113, read so). -/
def mixWith (k0 k1 k2 k3 : Byte) (s : Block) : Block :=
  Vector.ofFn fun i =>
    let r := i.val % 4
    let c := i.val / 4
    gmul k0 s[r + 4 * c] ^^^ gmul k1 s[(r + 1) % 4 + 4 * c] ^^^ gmul k2 s[(r + 2) % 4 + 4 * c] ^^^
      gmul k3 s[(r + 3) % 4 + 4 * c]

/-- MixColumns: first row `02 03 01 01` (R107). -/
def mixColumns (s : Block) : Block := mixWith 0x02 0x03 0x01 0x01 s

/-- InvMixColumns: first row `0e 0b 0d 09` (R113). -/
def invMixColumns (s : Block) : Block := mixWith 0x0e 0x0b 0x0d 0x09 s

/-- AddRoundKey: bytewise XOR with the round key (R109). -/
def addRoundKey (rk s : Block) : Block := Vector.ofFn fun i => s[i] ^^^ rk[i]

/-! Key expansion (R100, R108). -/

/-- A word of the key schedule: 4 bytes (R100). -/
abbrev Word := Vector Byte 4

/-- Bytewise XOR of words. -/
def xorWord (a b : Word) : Word := Vector.ofFn fun i => a[i] ^^^ b[i]

/-- RotWord: `[t1, t2, t3, t0]` (R108). -/
def rotWord (t : Word) : Word := #v[t[1], t[2], t[3], t[0]]

/-- SubWord: the S-box on each byte (R108). -/
def subWord (t : Word) : Word := t.map sbox

/-- `RCON[1..10]` (R108). -/
def rcon (i : Nat) : Byte := [0x01, 0x02, 0x04, 0x08, 0x10, 0x20, 0x40, 0x80, 0x1b, 0x36].getD (i - 1) 0

/-- The word `t` that is added to `w[i-4]` to give `w[i]`, from `w[i-1]` (R108). -/
def scheduleWord (i : Nat) (prev : Word) : Word :=
  if i % 4 = 0 then xorWord (subWord (rotWord prev)) #v[rcon (i / 4), 0, 0, 0] else prev

/-- `n` more words of the schedule, on the words so far with the newest first: the newest is `w[i-1]` and the fourth is
`w[i-4]`, where `i` is how many there are (R108). -/
def extendKey : Nat → List Word → List Word
  | 0, ws => ws
  | n + 1, ws =>
    extendKey n (xorWord (ws.getD 3 (Vector.replicate 4 0)) (scheduleWord ws.length (ws.getD 0 (Vector.replicate 4 0))) :: ws)

/-- `w[i]` for `i < 4`: the key's own words (R108). -/
def keyWord (k : Block) (i : Fin 4) : Word := Vector.ofFn fun j => k[4 * i.val + j.val]

/-- `w[0..43]` (R100, R108). -/
def expandKey (k : Block) : List Word := (extendKey 40 [keyWord k 3, keyWord k 2, keyWord k 1, keyWord k 0]).reverse

/-- Round key `r`: the bytes of `w[4r] ++ w[4r+1] ++ w[4r+2] ++ w[4r+3]` (R100). -/
def roundKey (k : Block) (r : Nat) : Block :=
  Vector.ofFn fun i => ((expandKey k).getD (4 * r + i.val / 4) (Vector.replicate 4 0))[i.val % 4]

/-! The cipher and its inverse. -/

/-- One of the rounds 1 to 9: SubBytes, ShiftRows, MixColumns, AddRoundKey (R110). -/
def encRound (rk s : Block) : Block := addRoundKey rk (mixColumns (shiftRows (subBytes s)))

/-- One of the rounds 9 down to 1: InvShiftRows, InvSubBytes, AddRoundKey, InvMixColumns (R114). -/
def decRound (rk s : Block) : Block := invMixColumns (addRoundKey rk (invSubBytes (invShiftRows s)))

/-- `AES128_Encrypt(K, b)` (R110). -/
def encrypt (k b : Block) : Block :=
  let s := [1, 2, 3, 4, 5, 6, 7, 8, 9].foldl (fun s r => encRound (roundKey k r) s) (addRoundKey (roundKey k 0) b)
  addRoundKey (roundKey k 10) (shiftRows (subBytes s))

/-- `AES128_Decrypt(K, b)` (R114). -/
def decrypt (k b : Block) : Block :=
  let s := [9, 8, 7, 6, 5, 4, 3, 2, 1].foldl (fun s r => decRound (roundKey k r) s) (addRoundKey (roundKey k 10) b)
  addRoundKey (roundKey k 0) (invSubBytes (invShiftRows s))

/-- Encrypting a 16-byte string (R56: byte `i` of the string is block byte `i`). -/
def encryptBytes (k : Block) (bytes : List Byte) : List Byte := (encrypt k (blockOfBytes bytes)).toList

/-- Decrypting a 16-byte string (R56). -/
def decryptBytes (k : Block) (bytes : List Byte) : List Byte := (decrypt k (blockOfBytes bytes)).toList

end Sys2Proof.Machine.Aes
end

