-- ==== Sys2Proof/Machine/Operands.lean ====
section
/-! DEFINITION. Where operations take their operands from (30_encoding.md R75): the input bytes, the next chunk, the
command payload. -/

namespace Sys2Proof.Machine

/-- `IBUF[0..ILEN-1]` (R75). -/
def inputBytes (s : State) : List Byte := ibufSlice s 0 s.ilen.toNat

/-- `n = min(15, ILEN - CPOS)` of the next chunk (R192). -/
def chunkLen (s : State) : Nat := min Config.maxPayload (s.ilen.toNat - s.cpos.toNat)

/-- `data = IBUF[CPOS .. CPOS+n-1]` of the next chunk (R192). -/
def chunkData (s : State) : List Byte := ibufSlice s s.cpos.toNat (chunkLen s)

/-- NAME(CID): the ASCII bytes of the command's name (R171). -/
def commandName : Command → List Byte
  | .ledon => [0x4c, 0x45, 0x44, 0x4f, 0x4e]
  | .ledoff => [0x4c, 0x45, 0x44, 0x4f, 0x46, 0x46]
  | .mode => [0x4d, 0x4f, 0x44, 0x45]
  | .speed => [0x53, 0x50, 0x45, 0x45, 0x44]
  | .light => [0x4c, 0x49, 0x47, 0x48, 0x54]
  | .dats => [0x44, 0x41, 0x54, 0x53]
  | .datcp => [0x44, 0x41, 0x54, 0x43, 0x50]

/-- ARGS(CID), from ARG: "no clamping", ARG[15:8] ignored but for DATS (R73, R75). -/
def commandArgs (arg : Half) : Command → List Byte
  | .ledon | .ledoff | .datcp => []
  | .mode | .speed | .light => [loByte arg]
  | .dats => [hiByte arg, loByte arg, 0x00, 0x00]

/-- `payload = NAME(CID) ++ ARGS(CID)` (R163). -/
def commandPayload (c : Command) (arg : Half) : List Byte := commandName c ++ commandArgs arg c

end Sys2Proof.Machine
end

