-- ==== Sys2Proof/Machine/Chunk.lean ====
section
/-! DEFINITION. The chunk encoder (43_chunk.md R190-R193). -/

namespace Sys2Proof.Machine

/-- What a successful CHUNK or CHUNKE writes, given its output bytes: `Out`, the cursor, and LAST from CPOS after the
add (R192). -/
def emitChunk (bytes : List Byte) (s : State) : State :=
  let pos := s.cpos + BitVec.ofNat 16 (chunkLen s)
  { outBytes bytes s with cpos := pos, ccnt := s.ccnt + 1, err := .ok, last := decide (pos = s.ilen) }

/-- CRST (R191). -/
def execCrst (s : State) : Host.Outcome State Fault Refusal := .next (succeed { s with cpos := 0, ccnt := 0 })

/-- CHUNK (R192): EXHAUSTED if CPOS ≥ ILEN. -/
def execChunk (s : State) : Host.Outcome State Fault Refusal :=
  if s.ilen.toNat ≤ s.cpos.toNat then .next (raiseError .exhausted s)
  else .next (emitChunk (frameBytes (chunkData s)) s)

/-- CHUNKE (R193): CHUNK with its block encrypted. -/
def execChunke (s : State) : Host.Outcome State Fault Refusal :=
  if s.ilen.toNat ≤ s.cpos.toNat then .next (raiseError .exhausted s)
  else .next (emitChunk (Aes.encryptBytes s.key (frameBytes (chunkData s))) s)

end Sys2Proof.Machine
end

