-- ==== Sys2Proof/Machine/Cipher.lean ====
section
/-! DEFINITION. ENC and DEC (40_cipher.md R120, R121). -/

namespace Sys2Proof.Machine

/-- ENC (R120): BLOCK_LEN unless ILEN is exactly 16. -/
def execEnc (s : State) : Host.Outcome State Fault Refusal :=
  if s.ilen = 16 then .next (succeed (outBytes (Aes.encryptBytes s.key (ibufSlice s 0 16)) s))
  else .next (raiseError .blockLen s)

/-- DEC (R121): BLOCK_LEN unless ILEN is exactly 16. No check on what it produces. -/
def execDec (s : State) : Host.Outcome State Fault Refusal :=
  if s.ilen = 16 then .next (succeed (outBytes (Aes.decryptBytes s.key (ibufSlice s 0 16)) s))
  else .next (raiseError .blockLen s)

end Sys2Proof.Machine
end

