-- ==== Sys2Proof/Machine/Command.lean ====
section
/-! DEFINITION. The command group: CMD.* outputs the encrypted frame (P = 0), CMDP.* the plaintext frame (P = 1)
(42_frame_command.md R163-R171). No command raises an error, reads ILEN or IBUF, or moves the cursor (R163). -/

namespace Sys2Proof.Machine

/-- `blk = Frame(NAME ++ ARGS)` (R163). -/
def commandFrame (c : Command) (s : State) : List Byte := frameBytes (commandPayload c s.arg)

/-- The wire packet of a command, P = 0 (R163). -/
def commandEncrypted (c : Command) (s : State) : State :=
  succeed (outBytes (Aes.encryptBytes s.key (commandFrame c s)) s)

/-- The plaintext block of a command, P = 1 (R163). -/
def commandPlain (c : Command) (s : State) : State := succeed (outBytes (commandFrame c s) s)

/-- CMD.LEDON (R164). -/
def execCmdLedon (s : State) : Host.Outcome State Fault Refusal := .next (commandEncrypted .ledon s)

/-- CMD.LEDOFF (R165). -/
def execCmdLedoff (s : State) : Host.Outcome State Fault Refusal := .next (commandEncrypted .ledoff s)

/-- CMD.MODE (R166). -/
def execCmdMode (s : State) : Host.Outcome State Fault Refusal := .next (commandEncrypted .mode s)

/-- CMD.SPEED (R167). -/
def execCmdSpeed (s : State) : Host.Outcome State Fault Refusal := .next (commandEncrypted .speed s)

/-- CMD.LIGHT (R168). -/
def execCmdLight (s : State) : Host.Outcome State Fault Refusal := .next (commandEncrypted .light s)

/-- CMD.DATS (R169). -/
def execCmdDats (s : State) : Host.Outcome State Fault Refusal := .next (commandEncrypted .dats s)

/-- CMD.DATCP (R170). -/
def execCmdDatcp (s : State) : Host.Outcome State Fault Refusal := .next (commandEncrypted .datcp s)

/-- CMDP.LEDON (R164). -/
def execCmdpLedon (s : State) : Host.Outcome State Fault Refusal := .next (commandPlain .ledon s)

/-- CMDP.LEDOFF (R165). -/
def execCmdpLedoff (s : State) : Host.Outcome State Fault Refusal := .next (commandPlain .ledoff s)

/-- CMDP.MODE (R166). -/
def execCmdpMode (s : State) : Host.Outcome State Fault Refusal := .next (commandPlain .mode s)

/-- CMDP.SPEED (R167). -/
def execCmdpSpeed (s : State) : Host.Outcome State Fault Refusal := .next (commandPlain .speed s)

/-- CMDP.LIGHT (R168). -/
def execCmdpLight (s : State) : Host.Outcome State Fault Refusal := .next (commandPlain .light s)

/-- CMDP.DATS (R169). -/
def execCmdpDats (s : State) : Host.Outcome State Fault Refusal := .next (commandPlain .dats s)

/-- CMDP.DATCP (R170). -/
def execCmdpDatcp (s : State) : Host.Outcome State Fault Refusal := .next (commandPlain .datcp s)

end Sys2Proof.Machine
end

