-- ==== Sys2Proof/Machine/Frame.lean ====
section
/-! DEFINITION. FRAME and FRAMEE (42_frame_command.md R161, R162). -/

namespace Sys2Proof.Machine

/-- FRAME (R161): TOO_LARGE if ILEN > 15. -/
def execFrame (s : State) : Host.Outcome State Fault Refusal :=
  if s.ilen.toNat ≤ Config.maxPayload then .next (succeed (outBytes (frameBytes (inputBytes s)) s))
  else .next (raiseError .tooLarge s)

/-- FRAMEE (R162): "the length is checked before encryption". -/
def execFramee (s : State) : Host.Outcome State Fault Refusal :=
  if s.ilen.toNat ≤ Config.maxPayload then
    .next (succeed (outBytes (Aes.encryptBytes s.key (frameBytes (inputBytes s))) s))
  else .next (raiseError .tooLarge s)

end Sys2Proof.Machine
end

