-- ==== Sys2Proof/Machine/Glyph.lean ====
section
/-! DEFINITION. The glyph bit-packer (41_glyph.md R140-R143). Packing reads the bit-by-bit table of R141; unpacking
reads the equations of R141. -/

namespace Sys2Proof.Machine

/-- `COLBYTE`: the byte that column `c` owns for rows 0 to 7 (R141). -/
def colByte (c : Nat) : Nat := [0, 2, 3, 5, 6, 8].getD c 0

/-- `PAIRBYTE`: the byte that columns `2k` and `2k+1` share for rows 8 to 11 (R141). -/
def pairByte (k : Nat) : Nat := [1, 4, 7].getD k 0

/-- The byte and the bit of the packed segment that hold `g(c, r)`, by the equations of R141. -/
def glyphPlace (c r : Nat) : Nat × Nat :=
  if r < 8 then (colByte c, 7 - r)
  else if c % 2 = 0 then (pairByte (c / 2), 15 - r)
  else (pairByte ((c - 1) / 2), 11 - r)

/-- Bit `b` of the byte that the columns `even` and `even + 1` share: rows 8 to 11, from the most significant bit of
each nibble (R141, D18, log entry 11). -/
def pairCell (even b : Nat) : Nat × Nat := if 4 ≤ b then (even, 15 - b) else (even + 1, 11 - b)

/-- The cell `(c, r)` in bit `b` of packed byte `j`, by the table of R141. -/
def glyphCell (j b : Nat) : Nat × Nat :=
  match j with
  | 0 => (0, 7 - b)
  | 1 => pairCell 0 b
  | 2 => (1, 7 - b)
  | 3 => (2, 7 - b)
  | 4 => pairCell 2 b
  | 5 => (3, 7 - b)
  | 6 => (4, 7 - b)
  | 7 => pairCell 4 b
  | _ => (5, 7 - b)

/-- `g(c, r)` from grid bytes: bit `7 - c` of row `r` (R140). -/
def gridCell (rows : List Byte) (c r : Nat) : Bool := (rows.getD r 0).getLsbD (7 - c)

/-- `g(c, r)` from a packed segment (R141). -/
def packedCell (p : List Byte) (c r : Nat) : Bool := (p.getD (glyphPlace c r).1 0).getLsbD (glyphPlace c r).2

/-- The 9 packed bytes of grid bytes (R142). -/
def packGlyph (rows : List Byte) : List Byte :=
  (List.range 9).map fun j => byteOfBits fun b => gridCell rows (glyphCell j b).1 (glyphCell j b).2

/-- The 12 grid bytes of a packed segment: column `c` at bit `7 - c`, pad bits 0 (R143). -/
def unpackGlyph (p : List Byte) : List Byte :=
  (List.range 12).map fun r => byteOfBits fun b => decide (2 ≤ b) && packedCell p (7 - b) r

/-- The pad bits [1:0] of a grid byte are 0 (R140). -/
def padClear (row : Byte) : Bool := row.extractLsb' 0 2 == 0

/-- GPACK (R142): GLYPH_LEN unless ILEN = 12, then GLYPH_PAD if a pad bit is set (R222). -/
def execGpack (s : State) : Host.Outcome State Fault Refusal :=
  if s.ilen = 12 then
    if (ibufSlice s 0 12).all padClear then .next (succeed (outBytes (packGlyph (ibufSlice s 0 12)) s))
    else .next (raiseError .glyphPad s)
  else .next (raiseError .glyphLen s)

/-- GUNPACK (R143): GLYPH_LEN unless ILEN = 9. -/
def execGunpack (s : State) : Host.Outcome State Fault Refusal :=
  if s.ilen = 9 then .next (succeed (outBytes (unpackGlyph (ibufSlice s 0 9)) s))
  else .next (raiseError .glyphLen s)

end Sys2Proof.Machine
end

