-- ==== Sys2Proof/Machine/Misc.lean ====
section
/-! DEFINITION. NOP and the reserved opcodes (44_misc.md R210, R211). -/

namespace Sys2Proof.Machine

/-- NOP (R210): "does nothing but clear the status". -/
def execNop (s : State) : Host.Outcome State Fault Refusal := .next (succeed s)

/-- Any of the 232 reserved opcodes (R211): ILLEGAL, always. -/
def execReserved (s : State) : Host.Outcome State Fault Refusal := .next (raiseError .illegal s)

end Sys2Proof.Machine
end

