-- ==== Sys2Proof/Machine/Dispatch.lean ====
section
/-! DEFINITION. One arm per operation of the opcode map (R72). -/

namespace Sys2Proof.Machine

def exec (i : Instr) (s : State) : Host.Outcome State Fault Refusal :=
  match i with
  | .nop => Sys2Proof.Machine.execNop s
  | .enc => Sys2Proof.Machine.execEnc s
  | .dec => Sys2Proof.Machine.execDec s
  | .gpack => Sys2Proof.Machine.execGpack s
  | .gunpack => Sys2Proof.Machine.execGunpack s
  | .frame => Sys2Proof.Machine.execFrame s
  | .framee => Sys2Proof.Machine.execFramee s
  | .crst => Sys2Proof.Machine.execCrst s
  | .chunk => Sys2Proof.Machine.execChunk s
  | .chunke => Sys2Proof.Machine.execChunke s
  | .cmdLedon => Sys2Proof.Machine.execCmdLedon s
  | .cmdLedoff => Sys2Proof.Machine.execCmdLedoff s
  | .cmdMode => Sys2Proof.Machine.execCmdMode s
  | .cmdSpeed => Sys2Proof.Machine.execCmdSpeed s
  | .cmdLight => Sys2Proof.Machine.execCmdLight s
  | .cmdDats => Sys2Proof.Machine.execCmdDats s
  | .cmdDatcp => Sys2Proof.Machine.execCmdDatcp s
  | .cmdpLedon => Sys2Proof.Machine.execCmdpLedon s
  | .cmdpLedoff => Sys2Proof.Machine.execCmdpLedoff s
  | .cmdpMode => Sys2Proof.Machine.execCmdpMode s
  | .cmdpSpeed => Sys2Proof.Machine.execCmdpSpeed s
  | .cmdpLight => Sys2Proof.Machine.execCmdpLight s
  | .cmdpDats => Sys2Proof.Machine.execCmdpDats s
  | .cmdpDatcp => Sys2Proof.Machine.execCmdpDatcp s

end Sys2Proof.Machine
end

