-- ==== Sys2Proof/Machine/Flags.lean ====
section
/-! DEFINITION. STATUS (10_state.md R24, R33): the error numbers of R220, the computed END, and the byte a read
returns. -/

namespace Sys2Proof.Machine

/-- The error numbers of R220. -/
def ErrCode.code : ErrCode → BitVec 4
  | .ok => 0
  | .blockLen => 1
  | .tooLarge => 2
  | .glyphLen => 3
  | .glyphPad => 4
  | .exhausted => 5
  | .illegal => 6

/-- STATUS.END: "1 if CPOS ≥ ILEN and 0 otherwise, evaluated at the read" (R24). -/
def statusEnd (s : State) : Bool := decide (s.ilen.toNat ≤ s.cpos.toNat)

/-- STATUS as a byte: two zero bits, END, LAST, ERR (R24). -/
def statusByte (s : State) : Byte := 0b00#2 ++ BitVec.ofBool (statusEnd s) ++ BitVec.ofBool s.last ++ s.err.code

end Sys2Proof.Machine
end

