-- ==== Sys2Proof/Machine/Port.lean ====
section
/-! DEFINITION. The host port: the operation an OPR write performs (R71), and HostRead and HostWrite over the address
map of 20_memory.md R53. -/

namespace Sys2Proof.Machine

/-- A write of `v` to OPR: `OPR <- v`, then the operation `v` selects, or the reserved-opcode rule (R23, R71). -/
def performOpcode (v : Byte) (s : State) : Host.Outcome State Fault Refusal :=
  match decode [v] with
  | .ok (i, _) => exec i { s with opr := v }
  | .error _ => execReserved { s with opr := v }

/-- A register address 0x00000 to 0x0000A, and the reserved ones up to 0x0000F (R53). -/
def readRegister (s : State) (a : Nat) : Byte :=
  match a with
  | 0x0 => s.opr
  | 0x1 => statusByte s
  | 0x2 => hiByte s.ilen
  | 0x3 => loByte s.ilen
  | 0x4 => hiByte s.arg
  | 0x5 => loByte s.arg
  | 0x6 => s.olen
  | 0x7 => hiByte s.cpos
  | 0x8 => loByte s.cpos
  | 0x9 => hiByte s.ccnt
  | 0xA => loByte s.ccnt
  | _ => 0x00

/-- `HostRead(a)`: the byte R53 gives. It changes nothing (R59). -/
def hostRead (s : State) (a : HostAddr) : Byte :=
  if a.toNat < 0x10 then readRegister s a.toNat
  else if a.toNat < 0x20 then readObuf s (a.toNat - 0x10)
  else if a.toNat < 0x10000 then 0x00
  else readIbuf s (a.toNat - 0x10000)

/-- A write to a register address: only ILEN and ARG take it, a byte at a time; the read-only and reserved ones ignore
it (R53, R55). OPR is `performOpcode`. -/
def writeRegister (a : Nat) (v : Byte) (s : State) : State :=
  match a with
  | 0x2 => { s with ilen := setHiByte s.ilen v }
  | 0x3 => { s with ilen := setLoByte s.ilen v }
  | 0x4 => { s with arg := setHiByte s.arg v }
  | 0x5 => { s with arg := setLoByte s.arg v }
  | _ => s

/-- `HostWrite(a, v)` (R53). -/
def hostWrite (a : HostAddr) (v : Byte) (s : State) : Host.Outcome State Fault Refusal :=
  if a.toNat = 0 then performOpcode v s
  else if a.toNat < 0x10000 then .next (writeRegister a.toNat v s)
  else .next (writeIbuf s (a.toNat - 0x10000) v)

end Sys2Proof.Machine
end

