-- ==== Sys2Proof/Machine/Script.lean ====
section
/-! DEFINITION. The host-script notation (30_encoding.md R77, R78): what each line expands to, and the bytes of its
listing. -/

namespace Sys2Proof.Machine

/-- `load OFF, b0 ... bk`: one IBUF write a byte (R78). -/
def expandLoad (off : Nat) (bytes : List Byte) : List HostItem :=
  bytes.zipIdx.map fun bk => HostItem.wr (BitVec.ofNat 17 (0x10000 + off + bk.2)) bk.1

/-- `setilen N` (R78). -/
def expandSetilen (n : Half) : List HostItem := [.wr 0x00002 (hiByte n), .wr 0x00003 (loByte n)]

/-- `setarg N` (R78). -/
def expandSetarg (n : Half) : List HostItem := [.wr 0x00004 (hiByte n), .wr 0x00005 (loByte n)]

/-- `rdout`: 16 reads of OBUF (R78). -/
def expandRdout : List HostItem := (List.range 16).map fun k => HostItem.rd (BitVec.ofNat 17 (0x10 + k))

/-- What a line expands to (R77, R78). -/
def expandLine : ScriptLine → List HostItem
  | .wr a v => [.wr a v]
  | .rd a => [.rd a]
  | .op i => [.wr 0x00000 (encodeByte i)]
  | .label l => [.label l]
  | .jz a m l => [.jz a m l]
  | .jnz a m l => [.jnz a m l]
  | .halt => [.halt]
  | .setilen n => expandSetilen n
  | .setarg n => expandSetarg n
  | .load off bytes => expandLoad off bytes
  | .input bytes => expandLoad 0 bytes ++ expandSetilen (BitVec.ofNat 16 bytes.length)
  | .rdstat => [.rd 0x00001]
  | .rdout => expandRdout
  | .jmp l => [.jz 0x00001 0x00 l]

/-- What a listing expands to, line after line (R78). -/
def expandScript (lines : List ScriptLine) : List HostItem := lines.flatMap expandLine

end Sys2Proof.Machine
end

