-- ==== Sys2Proof/Machine/HostAgent.lean ====
section
/-! DEFINITION. The host's own control flow (30_encoding.md R77) and the platform's events (R250), one script item at
a time. -/

namespace Sys2Proof.Machine

/-- The item the host stands at; none past the last one, where the program has ended (R261). -/
def currentItem (s : State) : Option HostItem := s.script[s.hostPos]?

/-- The host goes on to the next item. -/
def advanceHost (s : State) : State := { s with hostPos := s.hostPos + 1 }

/-- The host takes the byte a HostRead returns. -/
def recordRead (b : Byte) (s : State) : State := { s with trace := s.trace ++ [b] }

/-- Where a label stands: its first definition. Log entry 8. -/
def labelPos (l : Label) (p : List HostItem) : Option Nat := p.findIdx? fun item => item == HostItem.label l

/-- The host's jump (R77). -/
def jumpTo (l : Label) (s : State) : Host.Outcome State Fault Refusal :=
  match labelPos l s.script with
  | some p => .next { s with hostPos := p }
  | none => .fault (.undefinedLabel l)

/-- `jz` and `jnz`: exactly one HostRead, then the jump or the next item (R77). -/
def branchHost (a : HostAddr) (l : Label) (taken : Byte → Bool) (s : State) : Host.Outcome State Fault Refusal :=
  if taken (hostRead s a) then jumpTo l (recordRead (hostRead s a) s)
  else .next (advanceHost (recordRead (hostRead s a) s))

/-- One item of the script (R77), or one event of the platform (R250, R236). -/
def runItem (item : HostItem) (s : State) : Host.Outcome State Fault Refusal :=
  match item with
  | .wr a v => hostWrite a v (advanceHost s)
  | .rd a => .next (advanceHost (recordRead (hostRead s a) s))
  | .label _ => .next (advanceHost s)
  | .jz a m l => branchHost a l (fun b => b &&& m == 0) s
  | .jnz a m l => branchHost a l (fun b => b &&& m != 0) s
  | .halt => .next s
  | .platformReset => .next (advanceHost (resetBlock s))
  | .powerCycle => .next (advanceHost (powerCycleBlock s))

/-- One step: the host's next access. Past its last item nothing happens, since the block never steps on its own (R20,
R261). -/
def runNext (s : State) : Host.Outcome State Fault Refusal :=
  match currentItem s with
  | some item => runItem item s
  | none => .next s

end Sys2Proof.Machine
end

