-- ==== Sys2Proof/Machine/Step.lean ====
section
/-! DEFINITION. One step, and how an opcode is placed where the next step takes it. -/

namespace Sys2Proof.Machine

/-- One step of host and block together (R20). -/
def step (s : State) : Host.Outcome State Fault Refusal := runNext s

/-- The host's script is the one write of the opcode `w` to OPR, and the host stands at it: the next step performs that
operation. The block fetches nothing (R63), so this is all it takes. Log entry 1. -/
def State.withFetchWord (s : State) (nbits w : Nat) : State :=
  { s with script := [.wr 0x00000 (BitVec.ofNat 8 (w % 2 ^ nbits))], hostPos := 0 }

end Sys2Proof.Machine
end

