-- ==== Sys2Proof/Safety.lean ====
section
/-! DEFINITION. The terms claims use: the invariant of the machine, a host that has ended, and iterated
operations with the payload their frames carry. -/

namespace Sys2Proof.Safety

open Sys2Proof.Machine

/-- OLEN is 0 after reset, and else one of the three output lengths (R27). -/
def olenLegal (s : State) : Prop := s.olen = 0 ∨ s.olen = 9 ∨ s.olen = 12 ∨ s.olen = 16

/-- "Every OBUF byte … always holds either a result byte or 0x00" (R27): from OLEN on, zeros. -/
def obufPadded (s : State) : Prop := ∀ k : Fin 16, s.olen.toNat ≤ k.val → s.obuf[k] = 0

/-- The cursor: each chunk carries 1 to 15 bytes (R29, R30, R192), so CCNT ≤ CPOS ≤ 15·CCNT. -/
def cursorLegal (s : State) : Prop := s.ccnt.toNat ≤ s.cpos.toNat ∧ s.cpos.toNat ≤ 15 * s.ccnt.toNat

/-- LAST marks a successful chunk (R24): no error, a whole block in OBUF, and a chunk counted. -/
def lastLegal (s : State) : Prop := s.last = true → s.err = .ok ∧ s.olen = 16 ∧ 1 ≤ s.ccnt.toNat

/-- The invariant of the machine: IBUF in canonical form, the output buffer padded, the cursor within its bounds,
LAST only after a chunk. -/
structure Inv (s : State) : Prop where
  ibuf : Memory.wf s.ibuf = true
  olen : olenLegal s
  obuf : obufPadded s
  cursor : cursorLegal s
  last : lastLegal s

/-- The host's program has ended: it is past its last item, or at `halt` (R261). -/
def ended (s : State) : Bool :=
  match currentItem s with
  | none => true
  | some .halt => true
  | some _ => false

/-- The same operation `n` times, while it goes on. -/
def repeatOp (i : Instr) : Nat → State → Option State
  | 0, s => some s
  | n + 1, s =>
    match exec i s with
    | .next t => repeatOp i n t
    | .fault _ => none
    | .refused _ => none

/-- The data a frame carries, "read from frame bytes 1..frame[0]" (R194). -/
def frameData (b : Block) : List Byte := (b.toList.drop 1).take (b.toList.getD 0 0).toNat

/-- The data of the chunks that `n` operations emit, in order, when `plain` gives the frame of an output block. -/
def streamData (i : Instr) (plain : Block → Block) : Nat → State → List Byte
  | 0, _ => []
  | n + 1, s =>
    match exec i s with
    | .next t => (if t.err = .ok then frameData (plain t.obuf) else []) ++ streamData i plain n t
    | .fault _ => []
    | .refused _ => []

/-- `ceil(L/15)`: the number of chunks of a payload of `L` bytes (R194). -/
def chunkCount (l : Nat) : Nat := (l + 14) / 15

/-- The ranges of the reserved opcodes, as R74 lists them. -/
def reservedOpcode (n : Nat) : Bool :=
  (0x01 ≤ n && n ≤ 0x0F) || (0x12 ≤ n && n ≤ 0x1F) || (0x22 ≤ n && n ≤ 0x2F) || (0x32 ≤ n && n ≤ 0x3F) ||
    (0x43 ≤ n && n ≤ 0x4F) || n == 0x57 || n == 0x5F || (0x60 ≤ n && n ≤ 0xFF)

/-- The operations that read KEY: ENC, DEC, FRAMEE, CHUNKE and CMD.* (R231). -/
def readsKey : Instr → Bool
  | .enc | .dec | .framee | .chunke => true
  | .cmdLedon | .cmdLedoff | .cmdMode | .cmdSpeed | .cmdLight | .cmdDats | .cmdDatcp => true
  | .nop | .gpack | .gunpack | .frame | .crst | .chunk => false
  | .cmdpLedon | .cmdpLedoff | .cmdpMode | .cmdpSpeed | .cmdpLight | .cmdpDats | .cmdpDatcp => false

/-- The operations that read ARG: MODE, SPEED, LIGHT and DATS, in both forms (R75). -/
def readsArg : Instr → Bool
  | .cmdMode | .cmdSpeed | .cmdLight | .cmdDats | .cmdpMode | .cmdpSpeed | .cmdpLight | .cmdpDats => true
  | .nop | .enc | .dec | .gpack | .gunpack | .frame | .framee | .crst | .chunk | .chunke => false
  | .cmdLedon | .cmdLedoff | .cmdDatcp | .cmdpLedon | .cmdpLedoff | .cmdpDatcp => false

/-- The operations that move the chunk cursor: CRST, CHUNK, CHUNKE (R66). -/
def movesCursor : Instr → Bool
  | .crst | .chunk | .chunke => true
  | .nop | .enc | .dec | .gpack | .gunpack | .frame | .framee => false
  | .cmdLedon | .cmdLedoff | .cmdMode | .cmdSpeed | .cmdLight | .cmdDats | .cmdDatcp => false
  | .cmdpLedon | .cmdpLedoff | .cmdpMode | .cmdpSpeed | .cmdpLight | .cmdpDats | .cmdpDatcp => false

/-- The operations that write OBUF and OLEN: all but NOP and CRST (R22, R66). -/
def writesOutput : Instr → Bool
  | .nop | .crst => false
  | .enc | .dec | .gpack | .gunpack | .frame | .framee | .chunk | .chunke => true
  | .cmdLedon | .cmdLedoff | .cmdMode | .cmdSpeed | .cmdLight | .cmdDats | .cmdDatcp => true
  | .cmdpLedon | .cmdpLedoff | .cmdpMode | .cmdpSpeed | .cmdpLight | .cmdpDats | .cmdpDatcp => true

end Sys2Proof.Safety
end

