-- ==== Sys2Proof/Certificates/Slice0/Obligations.lean ====
section
/-! DEFINITION. What is to be proved of the model, in the order of the spec's files. -/

open Sys2Proof Sys2Proof.Machine Sys2Proof.Safety

/-! Encoding (30_encoding.md). -/

/-- R72: the 24 rows of the opcode map, and every other value reserved. -/
def Obligations.OpcodeMapDecodes : Prop :=
  decode [0x00] = .ok (.nop, []) ∧ decode [0x10] = .ok (.enc, []) ∧ decode [0x11] = .ok (.dec, []) ∧
  decode [0x20] = .ok (.gpack, []) ∧ decode [0x21] = .ok (.gunpack, []) ∧
  decode [0x30] = .ok (.frame, []) ∧ decode [0x31] = .ok (.framee, []) ∧
  decode [0x40] = .ok (.crst, []) ∧ decode [0x41] = .ok (.chunk, []) ∧ decode [0x42] = .ok (.chunke, []) ∧
  decode [0x50] = .ok (.cmdLedon, []) ∧ decode [0x51] = .ok (.cmdLedoff, []) ∧ decode [0x52] = .ok (.cmdMode, []) ∧
  decode [0x53] = .ok (.cmdSpeed, []) ∧ decode [0x54] = .ok (.cmdLight, []) ∧ decode [0x55] = .ok (.cmdDats, []) ∧
  decode [0x56] = .ok (.cmdDatcp, []) ∧
  decode [0x58] = .ok (.cmdpLedon, []) ∧ decode [0x59] = .ok (.cmdpLedoff, []) ∧ decode [0x5A] = .ok (.cmdpMode, []) ∧
  decode [0x5B] = .ok (.cmdpSpeed, []) ∧ decode [0x5C] = .ok (.cmdpLight, []) ∧ decode [0x5D] = .ok (.cmdpDats, []) ∧
  decode [0x5E] = .ok (.cmdpDatcp, []) ∧
  ∀ op : Byte,
    op ∉ [(0x00 : Byte), 0x10, 0x11, 0x20, 0x21, 0x30, 0x31, 0x40, 0x41, 0x42, 0x50, 0x51, 0x52, 0x53, 0x54, 0x55, 0x56,
      0x58, 0x59, 0x5A, 0x5B, 0x5C, 0x5D, 0x5E] → decode [op] = .error (.reserved op)

/-- R70, R71: the encoder, written from the fields MAJ, SUB, D, E, P and CID, and the decoder, written from the opcode
map, undo each other, whatever bytes follow. -/
def Obligations.DecodeAndEncodeAgree : Prop :=
  (∀ (i : Instr) (rest : List Byte), decode (encode i ++ rest) = .ok (i, rest)) ∧
  ∀ (op : Byte) (rest : List Byte) (i : Instr) (left : List Byte),
    decode (op :: rest) = .ok (i, left) → encode i = [op] ∧ left = rest

/-- R74 and R211: the reserved opcodes are the 232 of R74's ranges, and an OPR write of one sets ERR to 6 (ILLEGAL)
and LAST to 0 and changes nothing else but OPR. -/
def Obligations.ReservedOpcodesAreIllegal : Prop :=
  ((List.range 256).filter reservedOpcode).length = 232 ∧
  (∀ op : Byte, decode [op] = .error (.reserved op) ↔ reservedOpcode op.toNat = true) ∧
  (∀ (op : Byte) (s : State), reservedOpcode op.toNat = true →
    hostWrite 0x00000 op s = .next { s with opr := op, err := .illegal, last := false }) ∧
  ErrCode.illegal.code = 6

/-! Reset (10_state.md R35, 70_reset_and_hazards.md R250, R251). -/

/-- R35: the value of every register after reset, in the machine's reset state and after a reset of any state, which
leaves KEY and every byte of IBUF. -/
def Obligations.ResetRegisterValues : Prop :=
  (∀ s : State, s = State.reset ∨ (∃ u, s = resetBlock u) →
    s.opr = 0x00 ∧ s.err.code = 0 ∧ s.last = false ∧ statusEnd s = true ∧ s.ilen = 0x0000 ∧ s.arg = 0x0000 ∧
    s.olen = 0x00 ∧ (∀ j < 16, readObuf s j = 0x00) ∧ s.cpos = 0x0000 ∧ s.ccnt = 0x0000) ∧
  ∀ u : State, (resetBlock u).key = u.key ∧ ∀ k, readIbuf (resetBlock u) k = readIbuf u k

/-- R250 and R251 through the step: at a platform reset (the model's script item of log entry 5) the registers take
their reset values, STATUS reads 0x20, IBUF and KEY stay, and the host goes on to its next item. -/
def Obligations.PlatformResetStep : Prop :=
  ∀ s : State, currentItem s = some .platformReset →
    ∃ t, step s = .next t ∧ t.opr = 0 ∧ t.err = .ok ∧ t.last = false ∧ t.ilen = 0 ∧ t.arg = 0 ∧ t.olen = 0 ∧
      (∀ j < 16, readObuf t j = 0) ∧ t.cpos = 0 ∧ t.ccnt = 0 ∧ hostRead t 0x00001 = 0x20 ∧ t.key = s.key ∧
      (∀ k, readIbuf t k = readIbuf s k) ∧ t.hostPos = s.hostPos + 1 ∧ t.script = s.script ∧ t.trace = s.trace

/-- R236 and R251: after a power cycle (log entry 5) every byte of IBUF is the free draw of the new power-up, under no
law, until the host writes it; the registers are as after reset. -/
def Obligations.PowerCycleFreesIbuf : Prop :=
  ∀ s : State, currentItem s = some .powerCycle →
    ∃ t, step s = .next t ∧ (∀ k, readIbuf t k = Config.ibufDraw (s.powerUps + 1) k) ∧ t.opr = 0 ∧ t.err = .ok ∧
      t.last = false ∧ t.ilen = 0 ∧ t.arg = 0 ∧ t.olen = 0 ∧ (∀ j < 16, readObuf t j = 0) ∧ t.cpos = 0 ∧ t.ccnt = 0 ∧
      t.key = s.key ∧
      ∀ (k : Nat) (v : Byte), readIbuf (writeIbuf t k v) k = v ∧
        ∀ j, j ≠ k → readIbuf (writeIbuf t k v) j = Config.ibufDraw (s.powerUps + 1) j

/-! The whole machine. -/

/-- The reset state meets the invariant: the registers by R35, and the list that holds IBUF in the canonical form of the
model's choice (log entry 4). -/
def Obligations.ResetMeetsInvariant : Prop := Inv State.reset

/-- Every step keeps the invariant: IBUF's canonical form (log entry 4); OLEN one of 0, 9, 12, 16 with zeros from OLEN on (R27);
CCNT ≤ CPOS ≤ 15·CCNT, so neither wraps (R29, R30); LAST only with a whole block and no error (R24). -/
def Obligations.StepKeepsInvariant : Prop := ∀ s t : State, Inv s → step s = .next t → Inv t

/-- R5, R31: no operation, no host access and no reset changes KEY. -/
def Obligations.StepNeverChangesKey : Prop := ∀ s t : State, step s = .next t → t.key = s.key

/-- R71, R58: when the host's next access writes an opcode to OPR, the step is the operation on the state with OPR
written and the host at its next item; a reserved byte performs R211. -/
def Obligations.StepRunsDecodedOperation : Prop :=
  (∀ (s : State) (v : Byte) (i : Instr) (rest : List Byte),
    currentItem s = some (.wr 0x00000 v) → decode [v] = .ok (i, rest) →
      step s = exec i { s with opr := v, hostPos := s.hostPos + 1 }) ∧
  ∀ (s : State) (v : Byte) (r : Reject), currentItem s = some (.wr 0x00000 v) → decode [v] = .error r →
    step s = .next { s with opr := v, err := .illegal, last := false, hostPos := s.hostPos + 1 }

/-- The placed opcode is the one the next step performs: `withFetchWord` is the host's one write to OPR (log entry 1). -/
def Obligations.FetchWordRunsNext : Prop :=
  ∀ (s : State) (w : Nat) (i : Instr), decodeTableWord 8 w = some i →
    step (s.withFetchWord 8 w) =
      exec i { s with script := [.wr 0x00000 (BitVec.ofNat 8 w)], hostPos := 1, opr := BitVec.ofNat 8 w }

/-! The host port (20_memory.md). -/

/-- R53 and R55: what a read of each host address returns, and what a write does. -/
def Obligations.AddressMap : Prop :=
  (∀ s : State,
    hostRead s 0x00000 = s.opr ∧ hostRead s 0x00001 = statusByte s ∧
    hostRead s 0x00002 = hiByte s.ilen ∧ hostRead s 0x00003 = loByte s.ilen ∧
    hostRead s 0x00004 = hiByte s.arg ∧ hostRead s 0x00005 = loByte s.arg ∧ hostRead s 0x00006 = s.olen ∧
    hostRead s 0x00007 = hiByte s.cpos ∧ hostRead s 0x00008 = loByte s.cpos ∧
    hostRead s 0x00009 = hiByte s.ccnt ∧ hostRead s 0x0000A = loByte s.ccnt ∧
    (∀ a : HostAddr, 0x0000B ≤ a.toNat → a.toNat ≤ 0x0000F → hostRead s a = 0x00) ∧
    (∀ a : HostAddr, 0x00010 ≤ a.toNat → a.toNat ≤ 0x0001F → hostRead s a = readObuf s (a.toNat - 0x00010)) ∧
    (∀ a : HostAddr, 0x00020 ≤ a.toNat → a.toNat ≤ 0x0FFFF → hostRead s a = 0x00) ∧
    ∀ a : HostAddr, 0x10000 ≤ a.toNat → hostRead s a = readIbuf s (a.toNat - 0x10000)) ∧
  ∀ (s : State) (v : Byte),
    hostWrite 0x00000 v s = performOpcode v s ∧ hostWrite 0x00001 v s = .next s ∧
    hostWrite 0x00002 v s = .next { s with ilen := setHiByte s.ilen v } ∧
    hostWrite 0x00003 v s = .next { s with ilen := setLoByte s.ilen v } ∧
    hostWrite 0x00004 v s = .next { s with arg := setHiByte s.arg v } ∧
    hostWrite 0x00005 v s = .next { s with arg := setLoByte s.arg v } ∧
    (∀ a : HostAddr, 0x00006 ≤ a.toNat → a.toNat ≤ 0x0FFFF → hostWrite a v s = .next s) ∧
    ∀ a : HostAddr, 0x10000 ≤ a.toNat → hostWrite a v s = .next (writeIbuf s (a.toNat - 0x10000) v)

/-- R55, R59, R60, for a host write to any address but OPR: a write to ILEN, ARG or IBUF is read back at its address and
leaves every other address but STATUS as it was, and STATUS too unless it is to ILEN, whose write can change END; a write
to a read-only or reserved address changes no address. -/
def Obligations.ReadAfterWrite : Prop :=
  ∀ (s : State) (a : HostAddr) (v : Byte), a.toNat ≠ 0 →
    ∃ t, hostWrite a v s = .next t ∧
      ((2 ≤ a.toNat ∧ a.toNat ≤ 5) ∨ 0x10000 ≤ a.toNat → hostRead t a = v) ∧
      (a.toNat = 1 ∨ (6 ≤ a.toNat ∧ a.toNat < 0x10000) → hostRead t a = hostRead s a) ∧
      (∀ b : HostAddr, b ≠ a → b.toNat ≠ 1 → hostRead t b = hostRead s b) ∧
      (a.toNat ≠ 2 → a.toNat ≠ 3 → hostRead t 0x00001 = hostRead s 0x00001)

/-- R23: an OPR write sets OPR, then performs; a read of OPR gives the last value written, 0x00 after reset;
operations never write OPR. -/
def Obligations.OprHoldsLastOpcode : Prop :=
  (∀ (v : Byte) (s : State), ∃ t, hostWrite 0x00000 v s = .next t ∧ hostRead t 0x00000 = v ∧
    ((∃ i rest, decode [v] = .ok (i, rest) ∧ exec i { s with opr := v } = .next t) ∨
      ((∃ r, decode [v] = .error r) ∧ t = { s with opr := v, err := .illegal, last := false }))) ∧
  (∀ s : State, s = State.reset ∨ (∃ u, s = resetBlock u) → hostRead s 0x00000 = 0x00) ∧
  (∀ (i : Instr) (s t : State), exec i s = .next t → t.opr = s.opr) ∧
  ∀ (a : HostAddr) (v : Byte) (s t : State), a.toNat ≠ 0 → hostWrite a v s = .next t → t.opr = s.opr

/-- R54, R255: each byte write of ILEN or ARG replaces only its half, so the two may come in either order, and give
the big-endian value. -/
def Obligations.HalvesInEitherOrder : Prop :=
  ∀ (s : State) (h l : Byte),
    (∃ t u, hostWrite 0x00002 h s = .next t ∧ hostWrite 0x00003 l t = .next u ∧ u.ilen.toNat = 256 * h.toNat + l.toNat ∧
      t.ilen.toNat = 256 * h.toNat + s.ilen.toNat % 256 ∧
      ∃ t', hostWrite 0x00003 l s = .next t' ∧ hostWrite 0x00002 h t' = .next u ∧
        t'.ilen.toNat = 256 * (s.ilen.toNat / 256) + l.toNat) ∧
    ∃ t u, hostWrite 0x00004 h s = .next t ∧ hostWrite 0x00005 l t = .next u ∧ u.arg.toNat = 256 * h.toNat + l.toNat ∧
      t.arg.toNat = 256 * h.toNat + s.arg.toNat % 256 ∧
      ∃ t', hostWrite 0x00005 l s = .next t' ∧ hostWrite 0x00004 h t' = .next u ∧
        t'.arg.toNat = 256 * (s.arg.toNat / 256) + l.toNat

/-- The fields of the STATUS byte (R24): ERR in [3:0] and never above 6, LAST in [4], END = (CPOS ≥ ILEN) in [5], zeros
in [7:6]. -/
def Obligations.StatusByteFields : Prop :=
  ∀ s : State, (hostRead s 0x00001).extractLsb' 0 4 = s.err.code ∧ s.err.code.toNat ≤ 6 ∧
    (hostRead s 0x00001).getLsbD 4 = s.last ∧
    ((hostRead s 0x00001).getLsbD 5 = true ↔ s.ilen.toNat ≤ s.cpos.toNat) ∧
    (hostRead s 0x00001).getLsbD 6 = false ∧ (hostRead s 0x00001).getLsbD 7 = false

/-- LAST after an operation (R24): 1 exactly when it is a CHUNK or CHUNKE that emits the final chunk; every other
operation writes 0. -/
def Obligations.LastMarksFinalChunk : Prop :=
  ∀ (i : Instr) (s : State), ∃ t, exec i s = .next t ∧
    (t.last = true ↔ (i = .chunk ∨ i = .chunke) ∧ s.cpos.toNat < s.ilen.toNat ∧ s.ilen.toNat ≤ s.cpos.toNat + 15)

/-! The cipher (40_cipher.md). -/

/-- R120: ENC in full. -/
def Obligations.EncRule : Prop :=
  encode .enc = [0x10] ∧ ErrCode.blockLen.code = 1 ∧
  (∀ s : State, s.ilen.toNat = 16 →
    exec .enc s = .next { s with
      obuf := Aes.encrypt s.key (Vector.ofFn fun k => readIbuf s k.val), olen := 16, err := .ok, last := false }) ∧
  ∀ s : State, s.ilen.toNat ≠ 16 → exec .enc s = .next { s with err := .blockLen, last := false }

/-- R121: DEC in full. -/
def Obligations.DecRule : Prop :=
  encode .dec = [0x11] ∧ ErrCode.blockLen.code = 1 ∧
  (∀ s : State, s.ilen.toNat = 16 →
    exec .dec s = .next { s with
      obuf := Aes.decrypt s.key (Vector.ofFn fun k => readIbuf s k.val), olen := 16, err := .ok, last := false }) ∧
  ∀ s : State, s.ilen.toNat ≠ 16 → exec .dec s = .next { s with err := .blockLen, last := false }

/-- R115: under every key, encryption and decryption undo each other, so each is a permutation of the blocks. -/
def Obligations.AesInverseLaw : Prop :=
  (∀ K b : Block, Aes.decrypt K (Aes.encrypt K b) = b) ∧ (∀ K b : Block, Aes.encrypt K (Aes.decrypt K b) = b) ∧
  ∀ K : Block, Function.Bijective (Aes.encrypt K) ∧ Function.Bijective (Aes.decrypt K)

/-- R105: the S-box table is the field inverse (0 for 0) followed by the affine map with 0x63. -/
def Obligations.SboxIsInverseThenAffine : Prop :=
  ∀ a : Byte, ∃ b : Byte, (a = 0 → b = 0) ∧ (a ≠ 0 → Aes.gmul a b = 1) ∧
    Aes.sbox a = b ^^^ b.rotateLeft 1 ^^^ b.rotateLeft 2 ^^^ b.rotateLeft 3 ^^^ b.rotateLeft 4 ^^^ 0x63

/-- The examples of R120 and R121 (FIPS-197 Appendix C.1), under their key. -/
def Obligations.FipsExamples : Prop :=
  let key : Block := #v[0x00, 0x01, 0x02, 0x03, 0x04, 0x05, 0x06, 0x07, 0x08, 0x09, 0x0a, 0x0b, 0x0c, 0x0d, 0x0e, 0x0f]
  let plain : Block := #v[0x00, 0x11, 0x22, 0x33, 0x44, 0x55, 0x66, 0x77, 0x88, 0x99, 0xaa, 0xbb, 0xcc, 0xdd, 0xee, 0xff]
  let wire : Block := #v[0x69, 0xc4, 0xe0, 0xd8, 0x6a, 0x7b, 0x04, 0x30, 0xd8, 0xcd, 0xb7, 0x80, 0x70, 0xb4, 0xc5, 0x5a]
  Aes.encrypt key plain = wire ∧ Aes.decrypt key wire = plain

/-- R115 through the machine: DEC of what ENC put out, copied into IBUF of any state under the same KEY, gives the
bytes ENC read; and ENC of what DEC put out gives the bytes DEC read. -/
def Obligations.DecUndoesEnc : Prop :=
  (∀ s : State, s.ilen.toNat = 16 → ∃ t, exec .enc s = .next t ∧
    ∀ u : State, u.key = s.key → u.ilen.toNat = 16 → (∀ k < 16, readIbuf u k = readObuf t k) →
      ∃ v, exec .dec u = .next v ∧ v.err = .ok ∧ ∀ k < 16, readObuf v k = readIbuf s k) ∧
  ∀ s : State, s.ilen.toNat = 16 → ∃ t, exec .dec s = .next t ∧
    ∀ u : State, u.key = s.key → u.ilen.toNat = 16 → (∀ k < 16, readIbuf u k = readObuf t k) →
      ∃ v, exec .enc u = .next v ∧ v.err = .ok ∧ ∀ k < 16, readObuf v k = readIbuf s k

/-! Glyphs (41_glyph.md). -/

/-- R142: GPACK in full: each cell at the bit R141 gives it, zeros after the nine bytes, and its two errors in the
order of R222. -/
def Obligations.GpackRule : Prop :=
  encode .gpack = [0x20] ∧ ErrCode.glyphLen.code = 3 ∧ ErrCode.glyphPad.code = 4 ∧
  (∀ s : State, s.ilen.toNat = 12 → (∀ r < 12, (readIbuf s r).getLsbD 0 = false ∧ (readIbuf s r).getLsbD 1 = false) →
    ∃ t, exec .gpack s = .next t ∧ t = { s with obuf := t.obuf, olen := 9, err := .ok, last := false } ∧
      (∀ c < 6, ∀ r < 8,
        (readObuf t ([0, 2, 3, 5, 6, 8].getD c 0)).getLsbD (7 - r) = (readIbuf s r).getLsbD (7 - c)) ∧
      (∀ k < 3, ∀ r < 12, 8 ≤ r →
        (readObuf t ([1, 4, 7].getD k 0)).getLsbD (15 - r) = (readIbuf s r).getLsbD (7 - 2 * k) ∧
        (readObuf t ([1, 4, 7].getD k 0)).getLsbD (11 - r) = (readIbuf s r).getLsbD (7 - (2 * k + 1))) ∧
      ∀ j < 16, 9 ≤ j → readObuf t j = 0x00) ∧
  (∀ s : State, s.ilen.toNat = 12 → (∃ r < 12, (readIbuf s r).getLsbD 0 = true ∨ (readIbuf s r).getLsbD 1 = true) →
    exec .gpack s = .next { s with err := .glyphPad, last := false }) ∧
  ∀ s : State, s.ilen.toNat ≠ 12 → exec .gpack s = .next { s with err := .glyphLen, last := false }

/-- R143: GUNPACK in full: each cell from the bit R141 gives it, pad bits 0, zeros after the twelve bytes. -/
def Obligations.GunpackRule : Prop :=
  encode .gunpack = [0x21] ∧ ErrCode.glyphLen.code = 3 ∧
  (∀ s : State, s.ilen.toNat = 9 →
    ∃ t, exec .gunpack s = .next t ∧ t = { s with obuf := t.obuf, olen := 12, err := .ok, last := false } ∧
      (∀ c < 6, ∀ r < 8,
        (readObuf t r).getLsbD (7 - c) = (readIbuf s ([0, 2, 3, 5, 6, 8].getD c 0)).getLsbD (7 - r)) ∧
      (∀ k < 3, ∀ r < 12, 8 ≤ r →
        (readObuf t r).getLsbD (7 - 2 * k) = (readIbuf s ([1, 4, 7].getD k 0)).getLsbD (15 - r) ∧
        (readObuf t r).getLsbD (7 - (2 * k + 1)) = (readIbuf s ([1, 4, 7].getD k 0)).getLsbD (11 - r)) ∧
      (∀ r < 12, (readObuf t r).getLsbD 0 = false ∧ (readObuf t r).getLsbD 1 = false) ∧
      ∀ j < 16, 12 ≤ j → readObuf t j = 0x00) ∧
  ∀ s : State, s.ilen.toNat ≠ 9 → exec .gunpack s = .next { s with err := .glyphLen, last := false }

/-- R144: both round trips, through any state that holds the first output as its input. -/
def Obligations.GlyphRoundTrip : Prop :=
  (∀ s : State, s.ilen.toNat = 12 → (∀ r < 12, (readIbuf s r).getLsbD 0 = false ∧ (readIbuf s r).getLsbD 1 = false) →
    ∃ t, exec .gpack s = .next t ∧ t.olen.toNat = 9 ∧
      ∀ u : State, u.ilen.toNat = 9 → (∀ j < 9, readIbuf u j = readObuf t j) →
        ∃ v, exec .gunpack u = .next v ∧ v.olen.toNat = 12 ∧ ∀ r < 12, readObuf v r = readIbuf s r) ∧
  ∀ s : State, s.ilen.toNat = 9 →
    ∃ t, exec .gunpack s = .next t ∧ t.olen.toNat = 12 ∧
      ∀ u : State, u.ilen.toNat = 12 → (∀ r < 12, readIbuf u r = readObuf t r) →
        ∃ v, exec .gpack u = .next v ∧ v.err = .ok ∧ v.olen.toNat = 9 ∧ ∀ j < 9, readObuf v j = readIbuf s j

/-! Frames and commands (42_frame_command.md). -/

/-- R161: FRAME in full: the length byte, the payload in order, zeros. -/
def Obligations.FrameRule : Prop :=
  encode .frame = [0x30] ∧ ErrCode.tooLarge.code = 2 ∧
  (∀ s : State, s.ilen.toNat ≤ 15 →
    ∃ t, exec .frame s = .next t ∧ t = { s with obuf := t.obuf, olen := 16, err := .ok, last := false } ∧
      (readObuf t 0).toNat = s.ilen.toNat ∧ (∀ k < s.ilen.toNat, readObuf t (k + 1) = readIbuf s k) ∧
      ∀ k < 15, s.ilen.toNat ≤ k → readObuf t (k + 1) = 0x00) ∧
  ∀ s : State, 15 < s.ilen.toNat → exec .frame s = .next { s with err := .tooLarge, last := false }

/-- R162: FRAMEE in full: the frame that FRAME builds, encrypted under KEY. -/
def Obligations.FrameeRule : Prop :=
  encode .framee = [0x31] ∧ ErrCode.tooLarge.code = 2 ∧
  (∀ s : State, s.ilen.toNat ≤ 15 → ∃ t, exec .frame s = .next t ∧ t.err = .ok ∧
    exec .framee s = .next { s with obuf := Aes.encrypt s.key t.obuf, olen := 16, err := .ok, last := false }) ∧
  ∀ s : State, 15 < s.ilen.toNat → exec .framee s = .next { s with err := .tooLarge, last := false }

/-- R164, R165, R170: LEDON, LEDOFF and DATCP, both forms, from every state. -/
def Obligations.ArgumentlessCommands : Prop :=
  let ledon : Block := #v[0x05, 0x4c, 0x45, 0x44, 0x4f, 0x4e, 0, 0, 0, 0, 0, 0, 0, 0, 0, 0]
  let ledoff : Block := #v[0x06, 0x4c, 0x45, 0x44, 0x4f, 0x46, 0x46, 0, 0, 0, 0, 0, 0, 0, 0, 0]
  let datcp : Block := #v[0x05, 0x44, 0x41, 0x54, 0x43, 0x50, 0, 0, 0, 0, 0, 0, 0, 0, 0, 0]
  encode .cmdLedon = [0x50] ∧ encode .cmdpLedon = [0x58] ∧ encode .cmdLedoff = [0x51] ∧ encode .cmdpLedoff = [0x59] ∧
  encode .cmdDatcp = [0x56] ∧ encode .cmdpDatcp = [0x5E] ∧
  ∀ s : State,
    exec .cmdpLedon s = .next { s with obuf := ledon, olen := 16, err := .ok, last := false } ∧
    exec .cmdLedon s = .next { s with obuf := Aes.encrypt s.key ledon, olen := 16, err := .ok, last := false } ∧
    exec .cmdpLedoff s = .next { s with obuf := ledoff, olen := 16, err := .ok, last := false } ∧
    exec .cmdLedoff s = .next { s with obuf := Aes.encrypt s.key ledoff, olen := 16, err := .ok, last := false } ∧
    exec .cmdpDatcp s = .next { s with obuf := datcp, olen := 16, err := .ok, last := false } ∧
    exec .cmdDatcp s = .next { s with obuf := Aes.encrypt s.key datcp, olen := 16, err := .ok, last := false }

/-- R166, R167, R168: MODE, SPEED and LIGHT, both forms, from every state: the argument byte is ARG[7:0], unchecked. -/
def Obligations.ByteArgumentCommands : Prop :=
  let mode : Byte → Block := fun a => #v[0x05, 0x4d, 0x4f, 0x44, 0x45, a, 0, 0, 0, 0, 0, 0, 0, 0, 0, 0]
  let speed : Byte → Block := fun a => #v[0x06, 0x53, 0x50, 0x45, 0x45, 0x44, a, 0, 0, 0, 0, 0, 0, 0, 0, 0]
  let light : Byte → Block := fun a => #v[0x06, 0x4c, 0x49, 0x47, 0x48, 0x54, a, 0, 0, 0, 0, 0, 0, 0, 0, 0]
  encode .cmdMode = [0x52] ∧ encode .cmdpMode = [0x5A] ∧ encode .cmdSpeed = [0x53] ∧ encode .cmdpSpeed = [0x5B] ∧
  encode .cmdLight = [0x54] ∧ encode .cmdpLight = [0x5C] ∧
  ∀ (s : State) (a : Byte), s.arg.toNat % 256 = a.toNat →
    exec .cmdpMode s = .next { s with obuf := mode a, olen := 16, err := .ok, last := false } ∧
    exec .cmdMode s = .next { s with obuf := Aes.encrypt s.key (mode a), olen := 16, err := .ok, last := false } ∧
    exec .cmdpSpeed s = .next { s with obuf := speed a, olen := 16, err := .ok, last := false } ∧
    exec .cmdSpeed s = .next { s with obuf := Aes.encrypt s.key (speed a), olen := 16, err := .ok, last := false } ∧
    exec .cmdpLight s = .next { s with obuf := light a, olen := 16, err := .ok, last := false } ∧
    exec .cmdLight s = .next { s with obuf := Aes.encrypt s.key (light a), olen := 16, err := .ok, last := false }

/-- R169: DATS, both forms, from every state: ARG big-endian, then two zero bytes. -/
def Obligations.DatsCommand : Prop :=
  let dats : Byte → Byte → Block := fun h l => #v[0x08, 0x44, 0x41, 0x54, 0x53, h, l, 0, 0, 0, 0, 0, 0, 0, 0, 0]
  encode .cmdDats = [0x55] ∧ encode .cmdpDats = [0x5D] ∧
  ∀ (s : State) (h l : Byte), s.arg.toNat = 256 * h.toNat + l.toNat →
    exec .cmdpDats s = .next { s with obuf := dats h l, olen := 16, err := .ok, last := false } ∧
    exec .cmdDats s = .next { s with obuf := Aes.encrypt s.key (dats h l), olen := 16, err := .ok, last := false }

/-- R163: every CMD.* is its CMDP.* with the block encrypted, and each DEC of it gives the plaintext block back. -/
def Obligations.WirePacketIsEncryptedBlock : Prop :=
  ∀ p ∈ [(Instr.cmdLedon, Instr.cmdpLedon), (.cmdLedoff, .cmdpLedoff), (.cmdMode, .cmdpMode), (.cmdSpeed, .cmdpSpeed),
      (.cmdLight, .cmdpLight), (.cmdDats, .cmdpDats), (.cmdDatcp, .cmdpDatcp)],
    ∀ s : State, ∃ t, exec p.2 s = .next t ∧ exec p.1 s = .next { t with obuf := Aes.encrypt s.key t.obuf } ∧
      Aes.decrypt s.key (Aes.encrypt s.key t.obuf) = t.obuf

/-! Chunks (43_chunk.md). -/

/-- R191: CRST in full. -/
def Obligations.CrstRule : Prop :=
  encode .crst = [0x40] ∧
  ∀ s : State, ∃ t, exec .crst s = .next t ∧ t = { s with cpos := 0, ccnt := 0, err := .ok, last := false } ∧
    (statusEnd t = true ↔ s.ilen.toNat = 0)

/-- R192: CHUNK in full: the frame of the next min(15, ILEN - CPOS) bytes, the cursor, LAST; EXHAUSTED at the end. -/
def Obligations.ChunkRule : Prop :=
  encode .chunk = [0x41] ∧ ErrCode.exhausted.code = 5 ∧
  (∀ s : State, s.cpos.toNat < s.ilen.toNat → ∃ t n, n = min 15 (s.ilen.toNat - s.cpos.toNat) ∧
    exec .chunk s = .next t ∧
    t = { s with obuf := t.obuf, olen := 16, cpos := t.cpos, ccnt := s.ccnt + 1, err := .ok, last := t.last } ∧
    (readObuf t 0).toNat = n ∧ (∀ k < n, readObuf t (k + 1) = readIbuf s (s.cpos.toNat + k)) ∧
    (∀ k < 15, n ≤ k → readObuf t (k + 1) = 0x00) ∧
    t.cpos.toNat = s.cpos.toNat + n ∧ (t.last = true ↔ t.cpos = s.ilen)) ∧
  ∀ s : State, s.ilen.toNat ≤ s.cpos.toNat → exec .chunk s = .next { s with err := .exhausted, last := false }

/-- R193: CHUNKE in full: what CHUNK does, with the block encrypted under KEY. -/
def Obligations.ChunkeRule : Prop :=
  encode .chunke = [0x42] ∧ ErrCode.exhausted.code = 5 ∧
  (∀ s : State, s.cpos.toNat < s.ilen.toNat → ∃ t, exec .chunk s = .next t ∧ t.err = .ok ∧
    exec .chunke s = .next { t with obuf := Aes.encrypt s.key t.obuf }) ∧
  ∀ s : State, s.ilen.toNat ≤ s.cpos.toNat → exec .chunke s = .next { s with err := .exhausted, last := false }

/-- R194: from every state, CRST and then CHUNKs split the payload IBUF[0..ILEN-1]: exactly ceil(L/15) succeed, the
`k`-th carries its 15 bytes (the last one what is left), only the last sets LAST, END comes with it, one more CHUNK is
EXHAUSTED, and the data of all chunks in order is the payload. -/
def Obligations.ChunkStreamIsSplit : Prop :=
  ∀ s : State, ∃ s₀, exec .crst s = .next s₀ ∧
    (∀ k ≤ chunkCount s.ilen.toNat, ∃ u, repeatOp .chunk k s₀ = some u ∧ u.err = .ok ∧ u.ccnt.toNat = k ∧
      u.cpos.toNat = min (15 * k) s.ilen.toNat ∧
      (0 < k → frameData u.obuf = ((ibufSlice s 0 s.ilen.toNat).drop (15 * (k - 1))).take 15 ∧
        (u.last = true ↔ k = chunkCount s.ilen.toNat))) ∧
    (∃ u v, repeatOp .chunk (chunkCount s.ilen.toNat) s₀ = some u ∧ statusEnd u = true ∧ exec .chunk u = .next v ∧
      v = { u with err := .exhausted, last := false }) ∧
    streamData .chunk id (chunkCount s.ilen.toNat) s₀ = ibufSlice s 0 s.ilen.toNat

/-- R194 for CHUNKE: the chunks' data, once decrypted under KEY, is the payload, and one more CHUNKE is EXHAUSTED. -/
def Obligations.EncryptedStreamCarriesPayload : Prop :=
  ∀ s : State, ∃ s₀, exec .crst s = .next s₀ ∧
    streamData .chunke (Aes.decrypt s.key) (chunkCount s.ilen.toNat) s₀ = ibufSlice s 0 s.ilen.toNat ∧
    ∃ u v, repeatOp .chunke (chunkCount s.ilen.toNat) s₀ = some u ∧ u.ccnt.toNat = chunkCount s.ilen.toNat ∧
      exec .chunke u = .next v ∧ v.err = .exhausted

/-- R256: an operation outside the chunk group may stand between two chunks: the next CHUNK has the same outcome, moves
the cursor the same way and, if it succeeds, puts out the same block. -/
def Obligations.OtherOperationsSafeBetweenChunks : Prop :=
  ∀ i : Instr, movesCursor i = false → ∀ s : State, ∃ t u v, exec i s = .next t ∧ exec .chunk s = .next u ∧
    exec .chunk t = .next v ∧ v.cpos = u.cpos ∧ v.ccnt = u.ccnt ∧ v.err = u.err ∧ v.last = u.last ∧
    (u.err = .ok → v.obuf = u.obuf ∧ v.olen = u.olen)

/-! NOP and errors (44_misc.md, 60_exceptions.md). -/

/-- R210: NOP clears ERR and LAST and nothing else; OPR reads 0x00 after its write. -/
def Obligations.NopRule : Prop :=
  encode .nop = [0x00] ∧
  (∀ s : State, exec .nop s = .next { s with err := .ok, last := false }) ∧
  ∀ s : State, hostWrite 0x00000 0x00 s = .next { s with opr := 0x00, err := .ok, last := false }

/-- R221 and R33, for all 256 bytes written to OPR: an operation that reports an error changes nothing but OPR, ERR and
LAST, which it clears; and no operation reads ERR or LAST: each writes both afresh. -/
def Obligations.ErrorsChangeOnlyStatus : Prop :=
  (∀ (v : Byte) (s : State), ∃ t, hostWrite 0x00000 v s = .next t ∧
    (t.err ≠ .ok → t = { s with opr := v, err := t.err, last := false })) ∧
  ∀ (v : Byte) (s : State) (e : ErrCode) (l : Bool),
    hostWrite 0x00000 v { s with err := e, last := l } = hostWrite 0x00000 v s

/-- R220 and R222: which operation reports which error, and when; the numbers; GLYPH_LEN before GLYPH_PAD; ILLEGAL for
reserved bytes alone; OPR holds the opcode and ILEN the length, and ERR is never above 6. -/
def Obligations.ErrorCodesAndPriority : Prop :=
  (∀ (i : Instr) (s : State), ∃ t, exec i s = .next t ∧
    (t.err = .blockLen ↔ (i = .enc ∨ i = .dec) ∧ s.ilen.toNat ≠ 16) ∧
    (t.err = .tooLarge ↔ (i = .frame ∨ i = .framee) ∧ 15 < s.ilen.toNat) ∧
    (t.err = .glyphLen ↔ (i = .gpack ∧ s.ilen.toNat ≠ 12) ∨ (i = .gunpack ∧ s.ilen.toNat ≠ 9)) ∧
    (t.err = .glyphPad ↔ i = .gpack ∧ s.ilen.toNat = 12 ∧
      ∃ r < 12, (readIbuf s r).getLsbD 0 = true ∨ (readIbuf s r).getLsbD 1 = true) ∧
    (t.err = .exhausted ↔ (i = .chunk ∨ i = .chunke) ∧ s.ilen.toNat ≤ s.cpos.toNat) ∧ t.err ≠ .illegal) ∧
  (∀ (v : Byte) (s : State), ∃ t, hostWrite 0x00000 v s = .next t ∧ (t.err = .illegal ↔ ∃ r, decode [v] = .error r) ∧
    t.opr = v ∧ t.ilen = s.ilen ∧ t.err.code.toNat ≤ 6) ∧
  ErrCode.ok.code = 0 ∧ ErrCode.blockLen.code = 1 ∧ ErrCode.tooLarge.code = 2 ∧ ErrCode.glyphLen.code = 3 ∧
  ErrCode.glyphPad.code = 4 ∧ ErrCode.exhausted.code = 5 ∧ ErrCode.illegal.code = 6

/-- The frame of all 24 operations (R22, R23, R25, R26, R28, R31, R66): each goes on to a next state; OPR, ILEN, ARG,
KEY and every byte of IBUF stay; OBUF and OLEN stay unless it puts out; CPOS and CCNT stay unless it is CRST, CHUNK or
CHUNKE; the host's side stays. -/
def Obligations.OperationFrame : Prop :=
  ∀ (i : Instr) (s : State), ∃ t, exec i s = .next t ∧
    t.opr = s.opr ∧ t.ilen = s.ilen ∧ t.arg = s.arg ∧ t.key = s.key ∧ (∀ k, readIbuf t k = readIbuf s k) ∧
    (writesOutput i = false → t.obuf = s.obuf ∧ t.olen = s.olen) ∧
    (movesCursor i = false → t.cpos = s.cpos ∧ t.ccnt = s.ccnt) ∧
    t.script = s.script ∧ t.hostPos = s.hostPos ∧ t.trace = s.trace ∧
    ∀ a : HostAddr, a.toNat ≠ 0x1 → (a.toNat < 0x6 ∨ 0x20 ≤ a.toNat) → hostRead t a = hostRead s a

/-- R27: the output lengths of a successful operation, with zeros from OLEN on. -/
def Obligations.OutputLengths : Prop :=
  ∀ (i : Instr) (s : State), writesOutput i = true → ∃ t, exec i s = .next t ∧ (t.err = .ok →
    t.olen.toNat = (if i = .gpack then 9 else if i = .gunpack then 12 else 16) ∧
    ∀ j < 16, t.olen.toNat ≤ j → readObuf t j = 0x00)

/-! What an operation can depend on. -/

/-- R231: the plaintext operations, and every host read, are the same whatever KEY is. -/
def Obligations.PlaintextIgnoresKey : Prop :=
  (∀ i : Instr, readsKey i = false → ∀ (s : State) (K : Block), ∃ t, exec i s = .next t ∧
    exec i { s with key := K } = .next { t with key := K }) ∧
  ∀ (s : State) (K : Block) (a : HostAddr), hostRead { s with key := K } a = hostRead s a

/-- R28, R67: an operation reads no byte of IBUF from index ILEN on: with the first ILEN bytes the same, whatever the
rest of IBUF holds (written or drawn), it does the same. -/
def Obligations.OperationsReadOnlyIlenBytes : Prop :=
  ∀ (i : Instr) (s : State) (m : List Host.Cell) (n : Nat),
    (∀ k < s.ilen.toNat, readIbuf { s with ibuf := m, powerUps := n } k = readIbuf s k) →
      ∃ t, exec i s = .next t ∧
        exec i { s with ibuf := m, powerUps := n } = .next { t with ibuf := m, powerUps := n }

/-- R75: only MODE, SPEED, LIGHT and DATS read ARG, and the first three read ARG[7:0] alone. -/
def Obligations.OnlyCommandsReadArg : Prop :=
  (∀ i : Instr, readsArg i = false → ∀ (s : State) (a : Half), ∃ t, exec i s = .next t ∧
    exec i { s with arg := a } = .next { t with arg := a }) ∧
  ∀ i ∈ [Instr.cmdMode, .cmdSpeed, .cmdLight, .cmdpMode, .cmdpSpeed, .cmdpLight],
    ∀ (s : State) (a : Half), a.toNat % 256 = s.arg.toNat % 256 →
      ∃ t, exec i s = .next t ∧ exec i { s with arg := a } = .next { t with arg := a }

/-! The host (30_encoding.md R77, R78; 70_reset_and_hazards.md R261). -/

/-- R77 and R261, by the model's script (log entries 1, 6, 7 and 8): `wr` is its HostWrite, and `op` is the `wr` of its
opcode to OPR; a read returns its byte and changes nothing of the block; `jz` and `jnz` do one read and jump or go on, or
stop at a label that does not exist; `jmp`, as R78 expands it, always jumps; a label is passed; at `halt` and past the last
item nothing happens. -/
def Obligations.HostScriptForms : Prop :=
  (∀ (s : State) (a : HostAddr) (v : Byte), currentItem s = some (.wr a v) →
    step s = hostWrite a v { s with hostPos := s.hostPos + 1 }) ∧
  (∀ i : Instr, expandLine (.op i) = [.wr 0x00000 (encodeByte i)]) ∧
  (∀ (s : State) (a : HostAddr), currentItem s = some (.rd a) →
    step s = .next { s with trace := s.trace ++ [hostRead s a], hostPos := s.hostPos + 1 }) ∧
  (∀ (s : State) (l : Label), currentItem s = some (.label l) → step s = .next { s with hostPos := s.hostPos + 1 }) ∧
  (∀ (s : State) (a : HostAddr) (m : Byte) (l : Label), currentItem s = some (.jz a m l) →
    (hostRead s a &&& m ≠ 0 →
      step s = .next { s with trace := s.trace ++ [hostRead s a], hostPos := s.hostPos + 1 }) ∧
    (hostRead s a &&& m = 0 →
      (∀ p : Nat, s.script[p]? = some (HostItem.label l) → (∀ q < p, s.script[q]? ≠ some (HostItem.label l)) →
        step s = .next { s with trace := s.trace ++ [hostRead s a], hostPos := p }) ∧
      ((∀ p : Nat, s.script[p]? ≠ some (HostItem.label l)) → step s = .fault (.undefinedLabel l)))) ∧
  (∀ (s : State) (a : HostAddr) (m : Byte) (l : Label), currentItem s = some (.jnz a m l) →
    (hostRead s a &&& m = 0 →
      step s = .next { s with trace := s.trace ++ [hostRead s a], hostPos := s.hostPos + 1 }) ∧
    (hostRead s a &&& m ≠ 0 →
      (∀ p : Nat, s.script[p]? = some (HostItem.label l) → (∀ q < p, s.script[q]? ≠ some (HostItem.label l)) →
        step s = .next { s with trace := s.trace ++ [hostRead s a], hostPos := p }) ∧
      ((∀ p : Nat, s.script[p]? ≠ some (HostItem.label l)) → step s = .fault (.undefinedLabel l)))) ∧
  (∀ (s : State) (l : Label) (item : HostItem), expandLine (.jmp l) = [item] → currentItem s = some item →
    ∀ p : Nat, s.script[p]? = some (HostItem.label l) → (∀ q < p, s.script[q]? ≠ some (HostItem.label l)) →
      step s = .next { s with trace := s.trace ++ [statusByte s], hostPos := p }) ∧
  ∀ s : State, ended s = true → step s = .next s

/-- R78: the exact expansions of the pseudo-instructions. A `load` that stays inside IBUF writes to the addresses R78 gives,
and an `input` whose count ILEN can hold sets ILEN to it; R50 and R6 leave no address and no value for a longer one. The
condition of the `jz` that `jmp` expands to holds in every state. -/
def Obligations.PseudoExpansions : Prop :=
  (∀ n : Half, expandLine (.setilen n) =
    [.wr 0x00002 (BitVec.ofNat 8 (n.toNat / 256)), .wr 0x00003 (BitVec.ofNat 8 (n.toNat % 256))]) ∧
  (∀ n : Half, expandLine (.setarg n) =
    [.wr 0x00004 (BitVec.ofNat 8 (n.toNat / 256)), .wr 0x00005 (BitVec.ofNat 8 (n.toNat % 256))]) ∧
  (∀ (off : Nat) (bytes : List Byte), off + bytes.length ≤ 65536 →
    (expandLine (.load off bytes)).length = bytes.length ∧
    ∀ k < bytes.length, ∃ a : HostAddr, a.toNat = 0x10000 + off + k ∧
      (expandLine (.load off bytes))[k]? = some (.wr a (bytes.getD k 0))) ∧
  (∀ (bytes : List Byte) (n : Half), n.toNat = bytes.length →
    expandLine (.input bytes) = expandLine (.load 0 bytes) ++ expandLine (.setilen n)) ∧
  expandLine .rdstat = [.rd 0x00001] ∧
  expandLine .rdout = [.rd 0x00010, .rd 0x00011, .rd 0x00012, .rd 0x00013, .rd 0x00014, .rd 0x00015, .rd 0x00016,
    .rd 0x00017, .rd 0x00018, .rd 0x00019, .rd 0x0001A, .rd 0x0001B, .rd 0x0001C, .rd 0x0001D, .rd 0x0001E,
    .rd 0x0001F] ∧
  (∀ l : Label, expandLine (.jmp l) = [.jz 0x00001 0x00 l]) ∧
  ∀ s : State, hostRead s 0x00001 &&& 0x00 = 0

/-- R78 run: the script of a well-formed `input` line leaves exactly its bytes at the start of IBUF, its length in ILEN,
and the rest of IBUF and the cursor as they were. -/
def Obligations.InputLoadsPayload : Prop :=
  ∀ (s : State) (bytes : List Byte), (ScriptLine.input bytes).wf = true → s.script = expandLine (.input bytes) →
    s.hostPos = 0 → ∃ t : State, Sys2Proof.core.run (bytes.length + 2) s = .next t ∧ t.ilen.toNat = bytes.length ∧
      (∀ k < bytes.length, readIbuf t k = bytes.getD k 0) ∧ (∀ k, bytes.length ≤ k → readIbuf t k = readIbuf s k) ∧
      t.cpos = s.cpos ∧ t.ccnt = s.ccnt ∧ t.obuf = s.obuf ∧ t.arg = s.arg ∧ t.opr = s.opr ∧ ended t = true
end

