-- ==== Sys2Proof/Laws/State.lean ====
section
/-! SUPPORT. One lemma per field of State per named update: later proofs never unfold a record update. -/

namespace Sys2Proof.Machine

/-! succeed -/

@[simp] theorem succeed_opr (s : State) : (succeed s).opr = s.opr := rfl
@[simp] theorem succeed_err (s : State) : (succeed s).err = .ok := rfl
@[simp] theorem succeed_last (s : State) : (succeed s).last = false := rfl
@[simp] theorem succeed_ilen (s : State) : (succeed s).ilen = s.ilen := rfl
@[simp] theorem succeed_arg (s : State) : (succeed s).arg = s.arg := rfl
@[simp] theorem succeed_olen (s : State) : (succeed s).olen = s.olen := rfl
@[simp] theorem succeed_obuf (s : State) : (succeed s).obuf = s.obuf := rfl
@[simp] theorem succeed_cpos (s : State) : (succeed s).cpos = s.cpos := rfl
@[simp] theorem succeed_ccnt (s : State) : (succeed s).ccnt = s.ccnt := rfl
@[simp] theorem succeed_ibuf (s : State) : (succeed s).ibuf = s.ibuf := rfl
@[simp] theorem succeed_powerUps (s : State) : (succeed s).powerUps = s.powerUps := rfl
@[simp] theorem succeed_key (s : State) : (succeed s).key = s.key := rfl
@[simp] theorem succeed_script (s : State) : (succeed s).script = s.script := rfl
@[simp] theorem succeed_hostPos (s : State) : (succeed s).hostPos = s.hostPos := rfl
@[simp] theorem succeed_trace (s : State) : (succeed s).trace = s.trace := rfl

/-! raiseError -/

@[simp] theorem raiseError_opr (e : ErrCode) (s : State) : (raiseError e s).opr = s.opr := rfl
@[simp] theorem raiseError_err (e : ErrCode) (s : State) : (raiseError e s).err = e := rfl
@[simp] theorem raiseError_last (e : ErrCode) (s : State) : (raiseError e s).last = false := rfl
@[simp] theorem raiseError_ilen (e : ErrCode) (s : State) : (raiseError e s).ilen = s.ilen := rfl
@[simp] theorem raiseError_arg (e : ErrCode) (s : State) : (raiseError e s).arg = s.arg := rfl
@[simp] theorem raiseError_olen (e : ErrCode) (s : State) : (raiseError e s).olen = s.olen := rfl
@[simp] theorem raiseError_obuf (e : ErrCode) (s : State) : (raiseError e s).obuf = s.obuf := rfl
@[simp] theorem raiseError_cpos (e : ErrCode) (s : State) : (raiseError e s).cpos = s.cpos := rfl
@[simp] theorem raiseError_ccnt (e : ErrCode) (s : State) : (raiseError e s).ccnt = s.ccnt := rfl
@[simp] theorem raiseError_ibuf (e : ErrCode) (s : State) : (raiseError e s).ibuf = s.ibuf := rfl
@[simp] theorem raiseError_powerUps (e : ErrCode) (s : State) : (raiseError e s).powerUps = s.powerUps := rfl
@[simp] theorem raiseError_key (e : ErrCode) (s : State) : (raiseError e s).key = s.key := rfl
@[simp] theorem raiseError_script (e : ErrCode) (s : State) : (raiseError e s).script = s.script := rfl
@[simp] theorem raiseError_hostPos (e : ErrCode) (s : State) : (raiseError e s).hostPos = s.hostPos := rfl
@[simp] theorem raiseError_trace (e : ErrCode) (s : State) : (raiseError e s).trace = s.trace := rfl

/-! outBytes -/

@[simp] theorem outBytes_opr (bytes : List Byte) (s : State) : (outBytes bytes s).opr = s.opr := rfl
@[simp] theorem outBytes_err (bytes : List Byte) (s : State) : (outBytes bytes s).err = s.err := rfl
@[simp] theorem outBytes_last (bytes : List Byte) (s : State) : (outBytes bytes s).last = s.last := rfl
@[simp] theorem outBytes_ilen (bytes : List Byte) (s : State) : (outBytes bytes s).ilen = s.ilen := rfl
@[simp] theorem outBytes_arg (bytes : List Byte) (s : State) : (outBytes bytes s).arg = s.arg := rfl
@[simp] theorem outBytes_olen (bytes : List Byte) (s : State) : (outBytes bytes s).olen = BitVec.ofNat 8 bytes.length := rfl
@[simp] theorem outBytes_obuf (bytes : List Byte) (s : State) : (outBytes bytes s).obuf = blockOfBytes bytes := rfl
@[simp] theorem outBytes_cpos (bytes : List Byte) (s : State) : (outBytes bytes s).cpos = s.cpos := rfl
@[simp] theorem outBytes_ccnt (bytes : List Byte) (s : State) : (outBytes bytes s).ccnt = s.ccnt := rfl
@[simp] theorem outBytes_ibuf (bytes : List Byte) (s : State) : (outBytes bytes s).ibuf = s.ibuf := rfl
@[simp] theorem outBytes_powerUps (bytes : List Byte) (s : State) : (outBytes bytes s).powerUps = s.powerUps := rfl
@[simp] theorem outBytes_key (bytes : List Byte) (s : State) : (outBytes bytes s).key = s.key := rfl
@[simp] theorem outBytes_script (bytes : List Byte) (s : State) : (outBytes bytes s).script = s.script := rfl
@[simp] theorem outBytes_hostPos (bytes : List Byte) (s : State) : (outBytes bytes s).hostPos = s.hostPos := rfl
@[simp] theorem outBytes_trace (bytes : List Byte) (s : State) : (outBytes bytes s).trace = s.trace := rfl

/-! emitChunk -/

@[simp] theorem emitChunk_opr (bytes : List Byte) (s : State) : (emitChunk bytes s).opr = s.opr := rfl
@[simp] theorem emitChunk_err (bytes : List Byte) (s : State) : (emitChunk bytes s).err = .ok := rfl
@[simp] theorem emitChunk_last (bytes : List Byte) (s : State) : (emitChunk bytes s).last = decide (s.cpos + BitVec.ofNat 16 (chunkLen s) = s.ilen) := rfl
@[simp] theorem emitChunk_ilen (bytes : List Byte) (s : State) : (emitChunk bytes s).ilen = s.ilen := rfl
@[simp] theorem emitChunk_arg (bytes : List Byte) (s : State) : (emitChunk bytes s).arg = s.arg := rfl
@[simp] theorem emitChunk_olen (bytes : List Byte) (s : State) : (emitChunk bytes s).olen = BitVec.ofNat 8 bytes.length := rfl
@[simp] theorem emitChunk_obuf (bytes : List Byte) (s : State) : (emitChunk bytes s).obuf = blockOfBytes bytes := rfl
@[simp] theorem emitChunk_cpos (bytes : List Byte) (s : State) : (emitChunk bytes s).cpos = s.cpos + BitVec.ofNat 16 (chunkLen s) := rfl
@[simp] theorem emitChunk_ccnt (bytes : List Byte) (s : State) : (emitChunk bytes s).ccnt = s.ccnt + 1 := rfl
@[simp] theorem emitChunk_ibuf (bytes : List Byte) (s : State) : (emitChunk bytes s).ibuf = s.ibuf := rfl
@[simp] theorem emitChunk_powerUps (bytes : List Byte) (s : State) : (emitChunk bytes s).powerUps = s.powerUps := rfl
@[simp] theorem emitChunk_key (bytes : List Byte) (s : State) : (emitChunk bytes s).key = s.key := rfl
@[simp] theorem emitChunk_script (bytes : List Byte) (s : State) : (emitChunk bytes s).script = s.script := rfl
@[simp] theorem emitChunk_hostPos (bytes : List Byte) (s : State) : (emitChunk bytes s).hostPos = s.hostPos := rfl
@[simp] theorem emitChunk_trace (bytes : List Byte) (s : State) : (emitChunk bytes s).trace = s.trace := rfl

/-! writeIbuf -/

@[simp] theorem writeIbuf_opr (s : State) (i : Nat) (v : Byte) : (writeIbuf s i v).opr = s.opr := rfl
@[simp] theorem writeIbuf_err (s : State) (i : Nat) (v : Byte) : (writeIbuf s i v).err = s.err := rfl
@[simp] theorem writeIbuf_last (s : State) (i : Nat) (v : Byte) : (writeIbuf s i v).last = s.last := rfl
@[simp] theorem writeIbuf_ilen (s : State) (i : Nat) (v : Byte) : (writeIbuf s i v).ilen = s.ilen := rfl
@[simp] theorem writeIbuf_arg (s : State) (i : Nat) (v : Byte) : (writeIbuf s i v).arg = s.arg := rfl
@[simp] theorem writeIbuf_olen (s : State) (i : Nat) (v : Byte) : (writeIbuf s i v).olen = s.olen := rfl
@[simp] theorem writeIbuf_obuf (s : State) (i : Nat) (v : Byte) : (writeIbuf s i v).obuf = s.obuf := rfl
@[simp] theorem writeIbuf_cpos (s : State) (i : Nat) (v : Byte) : (writeIbuf s i v).cpos = s.cpos := rfl
@[simp] theorem writeIbuf_ccnt (s : State) (i : Nat) (v : Byte) : (writeIbuf s i v).ccnt = s.ccnt := rfl
@[simp] theorem writeIbuf_ibuf (s : State) (i : Nat) (v : Byte) : (writeIbuf s i v).ibuf = Memory.insert s.ibuf i v := rfl
@[simp] theorem writeIbuf_powerUps (s : State) (i : Nat) (v : Byte) : (writeIbuf s i v).powerUps = s.powerUps := rfl
@[simp] theorem writeIbuf_key (s : State) (i : Nat) (v : Byte) : (writeIbuf s i v).key = s.key := rfl
@[simp] theorem writeIbuf_script (s : State) (i : Nat) (v : Byte) : (writeIbuf s i v).script = s.script := rfl
@[simp] theorem writeIbuf_hostPos (s : State) (i : Nat) (v : Byte) : (writeIbuf s i v).hostPos = s.hostPos := rfl
@[simp] theorem writeIbuf_trace (s : State) (i : Nat) (v : Byte) : (writeIbuf s i v).trace = s.trace := rfl

/-! resetBlock -/

@[simp] theorem resetBlock_opr (s : State) : (resetBlock s).opr = 0x00 := rfl
@[simp] theorem resetBlock_err (s : State) : (resetBlock s).err = .ok := rfl
@[simp] theorem resetBlock_last (s : State) : (resetBlock s).last = false := rfl
@[simp] theorem resetBlock_ilen (s : State) : (resetBlock s).ilen = 0x0000 := rfl
@[simp] theorem resetBlock_arg (s : State) : (resetBlock s).arg = 0x0000 := rfl
@[simp] theorem resetBlock_olen (s : State) : (resetBlock s).olen = 0x00 := rfl
@[simp] theorem resetBlock_obuf (s : State) : (resetBlock s).obuf = Vector.replicate 16 0x00 := rfl
@[simp] theorem resetBlock_cpos (s : State) : (resetBlock s).cpos = 0x0000 := rfl
@[simp] theorem resetBlock_ccnt (s : State) : (resetBlock s).ccnt = 0x0000 := rfl
@[simp] theorem resetBlock_ibuf (s : State) : (resetBlock s).ibuf = s.ibuf := rfl
@[simp] theorem resetBlock_powerUps (s : State) : (resetBlock s).powerUps = s.powerUps := rfl
@[simp] theorem resetBlock_key (s : State) : (resetBlock s).key = s.key := rfl
@[simp] theorem resetBlock_script (s : State) : (resetBlock s).script = s.script := rfl
@[simp] theorem resetBlock_hostPos (s : State) : (resetBlock s).hostPos = s.hostPos := rfl
@[simp] theorem resetBlock_trace (s : State) : (resetBlock s).trace = s.trace := rfl

/-! powerCycleBlock -/

@[simp] theorem powerCycleBlock_opr (s : State) : (powerCycleBlock s).opr = 0x00 := rfl
@[simp] theorem powerCycleBlock_err (s : State) : (powerCycleBlock s).err = .ok := rfl
@[simp] theorem powerCycleBlock_last (s : State) : (powerCycleBlock s).last = false := rfl
@[simp] theorem powerCycleBlock_ilen (s : State) : (powerCycleBlock s).ilen = 0x0000 := rfl
@[simp] theorem powerCycleBlock_arg (s : State) : (powerCycleBlock s).arg = 0x0000 := rfl
@[simp] theorem powerCycleBlock_olen (s : State) : (powerCycleBlock s).olen = 0x00 := rfl
@[simp] theorem powerCycleBlock_obuf (s : State) : (powerCycleBlock s).obuf = Vector.replicate 16 0x00 := rfl
@[simp] theorem powerCycleBlock_cpos (s : State) : (powerCycleBlock s).cpos = 0x0000 := rfl
@[simp] theorem powerCycleBlock_ccnt (s : State) : (powerCycleBlock s).ccnt = 0x0000 := rfl
@[simp] theorem powerCycleBlock_ibuf (s : State) : (powerCycleBlock s).ibuf = [] := rfl
@[simp] theorem powerCycleBlock_powerUps (s : State) : (powerCycleBlock s).powerUps = s.powerUps + 1 := rfl
@[simp] theorem powerCycleBlock_key (s : State) : (powerCycleBlock s).key = s.key := rfl
@[simp] theorem powerCycleBlock_script (s : State) : (powerCycleBlock s).script = s.script := rfl
@[simp] theorem powerCycleBlock_hostPos (s : State) : (powerCycleBlock s).hostPos = s.hostPos := rfl
@[simp] theorem powerCycleBlock_trace (s : State) : (powerCycleBlock s).trace = s.trace := rfl

/-! advanceHost -/

@[simp] theorem advanceHost_opr (s : State) : (advanceHost s).opr = s.opr := rfl
@[simp] theorem advanceHost_err (s : State) : (advanceHost s).err = s.err := rfl
@[simp] theorem advanceHost_last (s : State) : (advanceHost s).last = s.last := rfl
@[simp] theorem advanceHost_ilen (s : State) : (advanceHost s).ilen = s.ilen := rfl
@[simp] theorem advanceHost_arg (s : State) : (advanceHost s).arg = s.arg := rfl
@[simp] theorem advanceHost_olen (s : State) : (advanceHost s).olen = s.olen := rfl
@[simp] theorem advanceHost_obuf (s : State) : (advanceHost s).obuf = s.obuf := rfl
@[simp] theorem advanceHost_cpos (s : State) : (advanceHost s).cpos = s.cpos := rfl
@[simp] theorem advanceHost_ccnt (s : State) : (advanceHost s).ccnt = s.ccnt := rfl
@[simp] theorem advanceHost_ibuf (s : State) : (advanceHost s).ibuf = s.ibuf := rfl
@[simp] theorem advanceHost_powerUps (s : State) : (advanceHost s).powerUps = s.powerUps := rfl
@[simp] theorem advanceHost_key (s : State) : (advanceHost s).key = s.key := rfl
@[simp] theorem advanceHost_script (s : State) : (advanceHost s).script = s.script := rfl
@[simp] theorem advanceHost_hostPos (s : State) : (advanceHost s).hostPos = s.hostPos + 1 := rfl
@[simp] theorem advanceHost_trace (s : State) : (advanceHost s).trace = s.trace := rfl

/-! recordRead -/

@[simp] theorem recordRead_opr (b : Byte) (s : State) : (recordRead b s).opr = s.opr := rfl
@[simp] theorem recordRead_err (b : Byte) (s : State) : (recordRead b s).err = s.err := rfl
@[simp] theorem recordRead_last (b : Byte) (s : State) : (recordRead b s).last = s.last := rfl
@[simp] theorem recordRead_ilen (b : Byte) (s : State) : (recordRead b s).ilen = s.ilen := rfl
@[simp] theorem recordRead_arg (b : Byte) (s : State) : (recordRead b s).arg = s.arg := rfl
@[simp] theorem recordRead_olen (b : Byte) (s : State) : (recordRead b s).olen = s.olen := rfl
@[simp] theorem recordRead_obuf (b : Byte) (s : State) : (recordRead b s).obuf = s.obuf := rfl
@[simp] theorem recordRead_cpos (b : Byte) (s : State) : (recordRead b s).cpos = s.cpos := rfl
@[simp] theorem recordRead_ccnt (b : Byte) (s : State) : (recordRead b s).ccnt = s.ccnt := rfl
@[simp] theorem recordRead_ibuf (b : Byte) (s : State) : (recordRead b s).ibuf = s.ibuf := rfl
@[simp] theorem recordRead_powerUps (b : Byte) (s : State) : (recordRead b s).powerUps = s.powerUps := rfl
@[simp] theorem recordRead_key (b : Byte) (s : State) : (recordRead b s).key = s.key := rfl
@[simp] theorem recordRead_script (b : Byte) (s : State) : (recordRead b s).script = s.script := rfl
@[simp] theorem recordRead_hostPos (b : Byte) (s : State) : (recordRead b s).hostPos = s.hostPos := rfl
@[simp] theorem recordRead_trace (b : Byte) (s : State) : (recordRead b s).trace = s.trace ++ [b] := rfl

end Sys2Proof.Machine
end

