-- ==== Sys2Proof/Laws/Memory.lean ====
section
/-! SUPPORT. IBUF as a list: read after write, a write leaves every other index alone, and the canonical form is
kept. -/

namespace Sys2Proof.Machine

theorem Memory.lookup_insert_self (m : List Host.Cell) (i : Nat) (v : Byte) :
    Memory.lookup (Memory.insert m i v) i = some v := by
  induction m with
  | nil => simp [Memory.insert, Memory.lookup]
  | cons c rest ih =>
    obtain ⟨j, w⟩ := c
    simp only [Memory.insert]
    split
    · simp [Memory.lookup]
    · split
      · simp [Memory.lookup]
      · simp [Memory.lookup, ih, show j ≠ i by omega]

theorem Memory.lookup_insert_other (m : List Host.Cell) (i k : Nat) (v : Byte) (h : k ≠ i) :
    Memory.lookup (Memory.insert m i v) k = Memory.lookup m k := by
  induction m with
  | nil => simp [Memory.insert, Memory.lookup, h.symm]
  | cons c rest ih =>
    obtain ⟨j, w⟩ := c
    simp only [Memory.insert]
    split
    · simp [Memory.lookup, h.symm]
    · split
      · next hij => subst hij; simp [Memory.lookup, show i ≠ k by omega]
      · simp [Memory.lookup, ih]

theorem Memory.risingFrom_weaken {lo lo' : Nat} {m : List Host.Cell} (h : lo ≤ lo')
    (hm : Memory.risingFrom lo' m = true) : Memory.risingFrom lo m = true := by
  cases m with
  | nil => rfl
  | cons c rest =>
    simp only [Memory.risingFrom, Bool.and_eq_true, decide_eq_true_eq] at hm ⊢
    exact ⟨⟨by omega, hm.1.2⟩, hm.2⟩

theorem Memory.risingFrom_insert {lo i : Nat} (m : List Host.Cell) (v : Byte) (hlo : lo ≤ i)
    (hi : i < Config.ibufSize) (hm : Memory.risingFrom lo m = true) :
    Memory.risingFrom lo (Memory.insert m i v) = true := by
  induction m generalizing lo with
  | nil => simp [Memory.insert, Memory.risingFrom, hlo, hi]
  | cons c rest ih =>
    obtain ⟨j, w⟩ := c
    simp only [Memory.risingFrom, Bool.and_eq_true, decide_eq_true_eq] at hm
    simp only [Memory.insert]
    split
    · simp [Memory.risingFrom, hlo, hi, hm.1.2, hm.2, show i + 1 ≤ j by omega]
    · split
      · subst_vars; simp [Memory.risingFrom, hlo, hi, hm.2]
      · simp [Memory.risingFrom, hm.1.1, hm.1.2, ih (lo := j + 1) (by omega) hm.2]

/-- A write keeps the canonical form. -/
theorem Memory.wf_insert {i : Nat} (m : List Host.Cell) (v : Byte) (hi : i < Config.ibufSize)
    (hm : Memory.wf m = true) : Memory.wf (Memory.insert m i v) = true :=
  Memory.risingFrom_insert m v (Nat.zero_le i) hi hm

/-- Every entry of a canonical list lies inside IBUF: an index from 65536 on reads as unlisted. -/
theorem Memory.lookup_none_of_size_le {lo i : Nat} (m : List Host.Cell) (hi : Config.ibufSize ≤ i)
    (hm : Memory.risingFrom lo m = true) : Memory.lookup m i = none := by
  induction m generalizing lo with
  | nil => rfl
  | cons c rest ih =>
    obtain ⟨j, w⟩ := c
    simp only [Memory.risingFrom, Bool.and_eq_true, decide_eq_true_eq] at hm
    simp [Memory.lookup, show j ≠ i by omega, ih hm.2]

/-- The empty list, after power-up, is canonical. -/
theorem Memory.wf_reset : Memory.wf State.reset.ibuf = true := rfl

@[simp] theorem readIbuf_writeIbuf_self (s : State) (i : Nat) (v : Byte) : readIbuf (writeIbuf s i v) i = v := by
  simp [readIbuf, Memory.lookup_insert_self]

theorem readIbuf_writeIbuf_other (s : State) (i k : Nat) (v : Byte) (h : k ≠ i) :
    readIbuf (writeIbuf s i v) k = readIbuf s k := by
  simp [readIbuf, Memory.lookup_insert_other _ _ _ _ h]

/-- What IBUF reads as depends on the list and the power-up alone. -/
theorem readIbuf_congr {s t : State} (hi : t.ibuf = s.ibuf) (hp : t.powerUps = s.powerUps) (i : Nat) :
    readIbuf t i = readIbuf s i := by simp [readIbuf, hi, hp]

theorem ibufSlice_congr {s t : State} (hi : t.ibuf = s.ibuf) (hp : t.powerUps = s.powerUps) (a n : Nat) :
    ibufSlice t a n = ibufSlice s a n := by simp [ibufSlice, readIbuf_congr hi hp]

@[simp] theorem ibufSlice_length (s : State) (a n : Nat) : (ibufSlice s a n).length = n := by simp [ibufSlice]

theorem ibufSlice_getD (s : State) (a n k : Nat) (d : Byte) (h : k < n) :
    (ibufSlice s a n).getD k d = readIbuf s (a + k) := by
  simp [ibufSlice, List.getD_eq_getElem?_getD, h]

/-- Slices depend on the bytes read alone. -/
theorem ibufSlice_eq_of_reads {s t : State} (a n : Nat) (h : ∀ k < n, readIbuf t (a + k) = readIbuf s (a + k)) :
    ibufSlice t a n = ibufSlice s a n := by
  simp only [ibufSlice]
  exact List.map_congr_left fun k hk => h k (List.mem_range.mp hk)

end Sys2Proof.Machine
end

