-- ==== Sys2Proof/Laws/Ops.lean ====
section
/-! SUPPORT. One lemma per shared operation: blocks and frames byte by byte, and bytes bit by bit. -/

namespace Sys2Proof.Machine

/-! Blocks and frames. -/

theorem blockOfBytes_getElem (bytes : List Byte) (k : Nat) (h : k < 16) :
    (blockOfBytes bytes)[k] = bytes.getD k 0 := by simp [blockOfBytes]

/-- A block is the block of its own bytes. -/
@[simp] theorem blockOfBytes_toList (b : Block) : blockOfBytes b.toList = b := by
  ext i hi
  simp [blockOfBytes]

/-- The bytes of a block built from 16 bytes are those bytes. -/
theorem toList_blockOfBytes (bytes : List Byte) (h : bytes.length = 16) : (blockOfBytes bytes).toList = bytes := by
  apply List.ext_getElem
  · simp [h]
  · intro k h₁ h₂
    simp [blockOfBytes, h₂]

@[simp] theorem encryptBytes_length (k : Block) (bytes : List Byte) : (Aes.encryptBytes k bytes).length = 16 := by
  simp [Aes.encryptBytes]

@[simp] theorem decryptBytes_length (k : Block) (bytes : List Byte) : (Aes.decryptBytes k bytes).length = 16 := by
  simp [Aes.decryptBytes]

@[simp] theorem blockOfBytes_encryptBytes (k : Block) (bytes : List Byte) :
    blockOfBytes (Aes.encryptBytes k bytes) = Aes.encrypt k (blockOfBytes bytes) := by simp [Aes.encryptBytes]

@[simp] theorem blockOfBytes_decryptBytes (k : Block) (bytes : List Byte) :
    blockOfBytes (Aes.decryptBytes k bytes) = Aes.decrypt k (blockOfBytes bytes) := by simp [Aes.decryptBytes]

/-- "Always 16 bytes" (R160). -/
theorem frameBytes_length (p : List Byte) (h : p.length ≤ 15) : (frameBytes p).length = 16 := by
  simp [frameBytes, Config.maxPayload]; omega

theorem frameBytes_zero (p : List Byte) : (frameBytes p).getD 0 0 = BitVec.ofNat 8 p.length := by simp [frameBytes]

theorem frameBytes_payload (p : List Byte) (k : Nat) (h : k < p.length) :
    (frameBytes p).getD (k + 1) 0 = p.getD k 0 := by
  simp [frameBytes, List.getD_eq_getElem?_getD, List.getElem?_append, h]

theorem frameBytes_pad (p : List Byte) (k : Nat) (h : p.length ≤ k) : (frameBytes p).getD (k + 1) 0 = 0 := by
  simp only [frameBytes, List.getD_eq_getElem?_getD, List.getElem?_cons_succ, List.getElem?_append, List.getElem?_replicate,
    show ¬ k < p.length by omega, if_false]
  split <;> rfl

/-- The frame gives its payload back. -/
theorem frameData_frameBytes (p : List Byte) (h : p.length ≤ 15) :
    Safety.frameData (blockOfBytes (frameBytes p)) = p := by
  rw [Safety.frameData, toList_blockOfBytes _ (frameBytes_length p h), frameBytes_zero]
  simp [frameBytes, Nat.mod_eq_of_lt (show p.length < 256 by omega)]

theorem chunkLen_le (s : State) : chunkLen s ≤ 15 := by simp [chunkLen, Config.maxPayload]

theorem chunkLen_pos (s : State) (h : s.cpos.toNat < s.ilen.toNat) : 1 ≤ chunkLen s := by
  simp [chunkLen, Config.maxPayload]; omega

theorem chunkLen_fits (s : State) (h : s.cpos.toNat < s.ilen.toNat) : s.cpos.toNat + chunkLen s ≤ s.ilen.toNat := by
  simp only [chunkLen]; omega

@[simp] theorem chunkData_length (s : State) : (chunkData s).length = chunkLen s := by simp [chunkData]

/-- CPOS "never wraps" (R29). -/
theorem cpos_add_chunkLen (s : State) (h : s.cpos.toNat < s.ilen.toNat) :
    (s.cpos + BitVec.ofNat 16 (chunkLen s)).toNat = s.cpos.toNat + chunkLen s := by
  have h₁ := chunkLen_fits s h
  have h₂ := s.ilen.isLt
  have h₃ := chunkLen_le s
  simp only [BitVec.toNat_add, BitVec.toNat_ofNat]
  omega

/-- OBUF after `Out`, byte by byte. -/
theorem readObuf_of_obuf {s : State} {bytes : List Byte} (h : s.obuf = blockOfBytes bytes) (j : Nat) (hj : j < 16) :
    readObuf s j = bytes.getD j 0 := by
  simp [readObuf, h, List.getD_eq_getElem?_getD, blockOfBytes, hj]

/-! Bits. -/

theorem bitAt_getLsbD (b : Bool) (j k : Nat) (hk : k < 8) : (bitAt b j).getLsbD k = (decide (k = j) && b) := by
  simp only [bitAt, BitVec.getLsbD_shiftLeft, BitVec.getLsbD_setWidth, BitVec.getLsbD_ofBool]
  rcases Nat.lt_trichotomy k j with h | h | h
  · simp [h, show k ≠ j by omega]
  · subst h; simp [hk]
  · simp [show k ≠ j by omega, show k - j ≠ 0 by omega]

theorem byteOfBits_getLsbD (f : Nat → Bool) (k : Nat) (h : k < 8) : (byteOfBits f).getLsbD k = f k := by
  simp only [byteOfBits, BitVec.getLsbD_or, bitAt_getLsbD _ _ k h]
  have : k = 0 ∨ k = 1 ∨ k = 2 ∨ k = 3 ∨ k = 4 ∨ k = 5 ∨ k = 6 ∨ k = 7 := by omega
  rcases this with h | h | h | h | h | h | h | h <;> subst h <;> simp

@[simp] theorem hiByte_setHiByte (v : Half) (b : Byte) : hiByte (setHiByte v b) = b := by
  ext i hi
  simp [hiByte, setHiByte, hi, show 8 + i < 16 by omega, BitVec.getLsbD_eq_getElem]

@[simp] theorem loByte_setHiByte (v : Half) (b : Byte) : loByte (setHiByte v b) = loByte v := by
  ext i hi
  simp [loByte, setHiByte, hi, show i < 16 by omega]

@[simp] theorem hiByte_setLoByte (v : Half) (b : Byte) : hiByte (setLoByte v b) = hiByte v := by
  ext i hi
  simp [hiByte, setLoByte, hi, show 8 + i < 16 by omega]

@[simp] theorem loByte_setLoByte (v : Half) (b : Byte) : loByte (setLoByte v b) = b := by
  ext i hi
  simp [loByte, setLoByte, hi, show i < 16 by omega]

/-- A 16-bit register is its two bytes. -/
theorem half_ext {v w : Half} (h : hiByte v = hiByte w) (l : loByte v = loByte w) : v = w := by
  ext i hi
  by_cases h8 : i < 8
  · have := congrArg (·.getLsbD i) l
    simpa [loByte, h8, hi] using this
  · have := congrArg (·.getLsbD (i - 8)) h
    simpa [hiByte, show i - 8 < 8 by omega, show 8 + (i - 8) = i by omega, hi] using this

end Sys2Proof.Machine
end

