-- ==== Sys2Proof/Laws/Aes.lean ====
section
/-! SUPPORT. Each round transformation of AES is undone by its inverse: the facts the inverse law of R115 rests on. -/

namespace Sys2Proof.Machine.Aes

/-- `INVSBOX[SBOX[a]] = a` (R112). -/
theorem invSbox_sbox : ∀ a : Byte, invSbox (sbox a) = a := by decide +kernel

theorem sbox_invSbox : ∀ a : Byte, sbox (invSbox a) = a := by decide +kernel

theorem invSubBytes_subBytes (s : Block) : invSubBytes (subBytes s) = s := by
  ext i hi; simp [invSubBytes, subBytes, invSbox_sbox]

theorem subBytes_invSubBytes (s : Block) : subBytes (invSubBytes s) = s := by
  ext i hi; simp [invSubBytes, subBytes, sbox_invSbox]

theorem shiftRows_getElem (s : Block) (i : Nat) (h : i < 16) :
    (shiftRows s)[i] = s[i % 4 + 4 * ((i / 4 + i % 4) % 4)] := by simp [shiftRows]

theorem invShiftRows_getElem (s : Block) (i : Nat) (h : i < 16) :
    (invShiftRows s)[i] = s[i % 4 + 4 * ((i / 4 + 4 - i % 4) % 4)] := by simp [invShiftRows]

theorem invShiftRows_shiftRows (s : Block) : invShiftRows (shiftRows s) = s := by
  ext i hi
  rw [invShiftRows_getElem _ _ hi, shiftRows_getElem]
  congr 2; omega

theorem shiftRows_invShiftRows (s : Block) : shiftRows (invShiftRows s) = s := by
  ext i hi
  rw [shiftRows_getElem _ _ hi, invShiftRows_getElem]
  congr 2; omega

theorem addRoundKey_addRoundKey (rk s : Block) : addRoundKey rk (addRoundKey rk s) = s := by
  ext i hi
  simp [addRoundKey]

/-- Multiplication distributes over addition in the second factor (R102). -/
theorem gmulBits_xor_right (n : Nat) (k a b : Byte) : gmulBits n k (a ^^^ b) = gmulBits n k a ^^^ gmulBits n k b := by
  induction n generalizing k a b with
  | zero => simp [gmulBits]
  | succ n ih =>
    simp only [gmulBits, BitVec.ushiftRight_xor_distrib, ih, BitVec.getLsbD_xor]
    cases a.getLsbD 0 <;> cases b.getLsbD 0 <;> simp <;> first | ac_rfl | skip
    rw [show k ^^^ gmulBits n (xtime k) (a >>> 1) ^^^ (k ^^^ gmulBits n (xtime k) (b >>> 1)) =
      (k ^^^ k) ^^^ (gmulBits n (xtime k) (a >>> 1) ^^^ gmulBits n (xtime k) (b >>> 1)) by ac_rfl]
    simp

theorem gmul_xor_right (k a b : Byte) : gmul k (a ^^^ b) = gmul k a ^^^ gmul k b := gmulBits_xor_right 8 k a b

/-- The `n` lowest bits of a byte, as a sum of powers of `x`. -/
def lowBits : Nat → Byte → Byte
  | 0, _ => 0
  | n + 1, a => lowBits n a ^^^ (if a.getLsbD n then (1 : Byte) <<< n else 0)

theorem lowBits_eight : ∀ a : Byte, lowBits 8 a = a := by decide +kernel

/-- Two additive functions that agree on the eight powers of `x` agree on every byte. -/
theorem additive_ext {f g : Byte → Byte} (hf : ∀ a b, f (a ^^^ b) = f a ^^^ f b) (hg : ∀ a b, g (a ^^^ b) = g a ^^^ g b)
    (h : ∀ n < 8, f ((1 : Byte) <<< n) = g ((1 : Byte) <<< n)) (a : Byte) : f a = g a := by
  have hf0 : f 0 = 0 := by have := hf 0 0; simpa using this
  have hg0 : g 0 = 0 := by have := hg 0 0; simpa using this
  have key : ∀ n ≤ 8, f (lowBits n a) = g (lowBits n a) := by
    intro n hn
    induction n with
    | zero => simp only [lowBits, hf0, hg0]
    | succ n ih =>
      rw [lowBits, hf, hg, ih (by omega)]
      split
      · rw [h n (by omega)]
      · rw [hf0, hg0]
  have := key 8 (Nat.le_refl 8)
  rwa [lowBits_eight] at this

/-- One entry of the product of two circulant matrices, the first with row `k`, the second with column `l`. -/
def mixProduct (k₀ k₁ k₂ k₃ l₀ l₁ l₂ l₃ a : Byte) : Byte :=
  gmul k₀ (gmul l₀ a) ^^^ gmul k₁ (gmul l₁ a) ^^^ gmul k₂ (gmul l₂ a) ^^^ gmul k₃ (gmul l₃ a)

theorem mixProduct_xor (k₀ k₁ k₂ k₃ l₀ l₁ l₂ l₃ a b : Byte) :
    mixProduct k₀ k₁ k₂ k₃ l₀ l₁ l₂ l₃ (a ^^^ b) =
      mixProduct k₀ k₁ k₂ k₃ l₀ l₁ l₂ l₃ a ^^^ mixProduct k₀ k₁ k₂ k₃ l₀ l₁ l₂ l₃ b := by
  simp only [mixProduct, gmul_xor_right]
  ac_rfl

/-- The condition that two circulant matrices are inverse, checked on the powers of `x`: with rows `k` and `l`, the
product's first row is `01 00 00 00`. -/
def mixInverse (k₀ k₁ k₂ k₃ l₀ l₁ l₂ l₃ : Byte) : Prop :=
  ∀ n < 8, mixProduct k₀ k₁ k₂ k₃ l₀ l₃ l₂ l₁ ((1 : Byte) <<< n) = (1 : Byte) <<< n ∧
    mixProduct k₀ k₁ k₂ k₃ l₁ l₀ l₃ l₂ ((1 : Byte) <<< n) = 0 ∧ mixProduct k₀ k₁ k₂ k₃ l₂ l₁ l₀ l₃ ((1 : Byte) <<< n) = 0 ∧
    mixProduct k₀ k₁ k₂ k₃ l₃ l₂ l₁ l₀ ((1 : Byte) <<< n) = 0

theorem mixInverse_inv : mixInverse 0x0e 0x0b 0x0d 0x09 0x02 0x03 0x01 0x01 := by unfold mixInverse; decide +kernel

theorem mixInverse_fwd : mixInverse 0x02 0x03 0x01 0x01 0x0e 0x0b 0x0d 0x09 := by unfold mixInverse; decide +kernel

theorem mixWith_getElem (k₀ k₁ k₂ k₃ : Byte) (s : Block) (i : Nat) (h : i < 16) :
    (mixWith k₀ k₁ k₂ k₃ s)[i] = gmul k₀ s[i % 4 + 4 * (i / 4)] ^^^ gmul k₁ s[(i % 4 + 1) % 4 + 4 * (i / 4)] ^^^
      gmul k₂ s[(i % 4 + 2) % 4 + 4 * (i / 4)] ^^^ gmul k₃ s[(i % 4 + 3) % 4 + 4 * (i / 4)] := by
  simp [mixWith]

/-- Inverse matrices undo each other on every column. -/
theorem mixWith_mixWith {k₀ k₁ k₂ k₃ l₀ l₁ l₂ l₃ : Byte} (h : mixInverse k₀ k₁ k₂ k₃ l₀ l₁ l₂ l₃) (s : Block) :
    mixWith k₀ k₁ k₂ k₃ (mixWith l₀ l₁ l₂ l₃ s) = s := by
  have h₀ : ∀ a, mixProduct k₀ k₁ k₂ k₃ l₀ l₃ l₂ l₁ a = a :=
    additive_ext (g := fun a => a) (mixProduct_xor _ _ _ _ _ _ _ _) (fun _ _ => rfl) fun n hn => (h n hn).1
  have h₁ : ∀ a, mixProduct k₀ k₁ k₂ k₃ l₁ l₀ l₃ l₂ a = 0 :=
    additive_ext (g := fun _ => 0) (mixProduct_xor _ _ _ _ _ _ _ _) (fun _ _ => by simp) fun n hn => (h n hn).2.1
  have h₂ : ∀ a, mixProduct k₀ k₁ k₂ k₃ l₂ l₁ l₀ l₃ a = 0 :=
    additive_ext (g := fun _ => 0) (mixProduct_xor _ _ _ _ _ _ _ _) (fun _ _ => by simp) fun n hn => (h n hn).2.2.1
  have h₃ : ∀ a, mixProduct k₀ k₁ k₂ k₃ l₃ l₂ l₁ l₀ a = 0 :=
    additive_ext (g := fun _ => 0) (mixProduct_xor _ _ _ _ _ _ _ _) (fun _ _ => by simp) fun n hn => (h n hn).2.2.2
  have collect : ∀ a b c d : Byte,
      gmul k₀ (gmul l₀ a ^^^ gmul l₁ b ^^^ gmul l₂ c ^^^ gmul l₃ d) ^^^
        gmul k₁ (gmul l₀ b ^^^ gmul l₁ c ^^^ gmul l₂ d ^^^ gmul l₃ a) ^^^
        gmul k₂ (gmul l₀ c ^^^ gmul l₁ d ^^^ gmul l₂ a ^^^ gmul l₃ b) ^^^
        gmul k₃ (gmul l₀ d ^^^ gmul l₁ a ^^^ gmul l₂ b ^^^ gmul l₃ c) = a := by
    intro a b c d
    have e : ∀ w x y z : Byte, w = a → x = 0 → y = 0 → z = 0 → w ^^^ x ^^^ y ^^^ z = a := by
      rintro w x y z rfl rfl rfl rfl; simp
    refine Eq.trans ?_ (e _ _ _ _ (h₀ a) (h₁ b) (h₂ c) (h₃ d))
    simp only [mixProduct, gmul_xor_right]
    ac_rfl
  refine Vector.ext fun i hi => ?_
  obtain ⟨r, c, hr, hc, rfl⟩ : ∃ r c, r < 4 ∧ c < 4 ∧ i = r + 4 * c := ⟨i % 4, i / 4, by omega, by omega, by omega⟩
  have hm : ∀ j, (j + 4 * c) % 4 = j % 4 := fun j => by omega
  have hd : ∀ j < 4, (j + 4 * c) / 4 = c := fun j _ => by omega
  rw [mixWith_getElem _ _ _ _ _ _ hi]
  have := collect s[r + 4 * c] s[(r + 1) % 4 + 4 * c] s[(r + 2) % 4 + 4 * c] s[(r + 3) % 4 + 4 * c]
  interval_cases r <;> simpa [mixWith_getElem, hm, hd] using this

theorem invMixColumns_mixColumns (s : Block) : invMixColumns (mixColumns s) = s := mixWith_mixWith mixInverse_inv s

theorem mixColumns_invMixColumns (s : Block) : mixColumns (invMixColumns s) = s := mixWith_mixWith mixInverse_fwd s

end Sys2Proof.Machine.Aes
end

