-- ==== Sys2Proof/Laws/Exec.lean ====
section
/-! SUPPORT. Everything an operation, a host access and a step can do: the inversion lemmas that later proofs cite
instead of unfolding the machine. -/

namespace Sys2Proof.Machine

/-- What an operation may do to the state: clear the status, raise an error, put out 9, 12 or 16 bytes, restart
the cursor, or emit a chunk. `moves` says that it may touch the cursor, `outputs` that it puts out when it succeeds. -/
inductive OpEffect (moves outputs : Bool) (s : State) : State → Prop where
  | status (ho : outputs = false) : OpEffect moves outputs s (succeed s)
  | error (e : ErrCode) (he : e ≠ .ok) : OpEffect moves outputs s (raiseError e s)
  | output (bytes : List Byte) (h : bytes.length = 9 ∨ bytes.length = 12 ∨ bytes.length = 16) (ho : outputs = true) :
      OpEffect moves outputs s (succeed (outBytes bytes s))
  | restart (hm : moves = true) (ho : outputs = false) :
      OpEffect moves outputs s (succeed { s with cpos := 0, ccnt := 0 })
  | chunk (bytes : List Byte) (h : bytes.length = 16) (hc : s.cpos.toNat < s.ilen.toNat) (hm : moves = true)
      (ho : outputs = true) : OpEffect moves outputs s (emitChunk bytes s)

theorem packGlyph_length (rows : List Byte) : (packGlyph rows).length = 9 := by simp [packGlyph]

theorem unpackGlyph_length (p : List Byte) : (unpackGlyph p).length = 12 := by simp [unpackGlyph]

/-- The longest command payload is DATS with 8 bytes (R163). -/
theorem commandPayload_length_le (c : Command) (arg : Half) : (commandPayload c arg).length ≤ 8 := by
  cases c <;> simp [commandPayload, commandName, commandArgs]

theorem commandFrame_length (c : Command) (s : State) : (commandFrame c s).length = 16 :=
  frameBytes_length _ ((commandPayload_length_le c s.arg).trans (by decide))

theorem commandPlain_effect (c : Command) (s : State) : OpEffect false true s (commandPlain c s) :=
  .output _ (.inr (.inr (commandFrame_length c s))) rfl

theorem commandEncrypted_effect (c : Command) (s : State) : OpEffect false true s (commandEncrypted c s) :=
  .output _ (.inr (.inr (encryptBytes_length _ _))) rfl

/-! One lemma per branch of each operation. -/

theorem execEnc_ok {s : State} (h : s.ilen = 16) :
    execEnc s = .next (succeed (outBytes (Aes.encryptBytes s.key (ibufSlice s 0 16)) s)) := if_pos h

theorem execEnc_error {s : State} (h : s.ilen ≠ 16) : execEnc s = .next (raiseError .blockLen s) := if_neg h

theorem execDec_ok {s : State} (h : s.ilen = 16) :
    execDec s = .next (succeed (outBytes (Aes.decryptBytes s.key (ibufSlice s 0 16)) s)) := if_pos h

theorem execDec_error {s : State} (h : s.ilen ≠ 16) : execDec s = .next (raiseError .blockLen s) := if_neg h

theorem execGpack_ok {s : State} (h : s.ilen = 12) (hp : (ibufSlice s 0 12).all padClear = true) :
    execGpack s = .next (succeed (outBytes (packGlyph (ibufSlice s 0 12)) s)) := by
  rw [execGpack, if_pos h, if_pos hp]

theorem execGpack_pad {s : State} (h : s.ilen = 12) (hp : (ibufSlice s 0 12).all padClear ≠ true) :
    execGpack s = .next (raiseError .glyphPad s) := by
  rw [execGpack, if_pos h, if_neg hp]

theorem execGpack_error {s : State} (h : s.ilen ≠ 12) : execGpack s = .next (raiseError .glyphLen s) := if_neg h

theorem execGunpack_ok {s : State} (h : s.ilen = 9) :
    execGunpack s = .next (succeed (outBytes (unpackGlyph (ibufSlice s 0 9)) s)) := if_pos h

theorem execGunpack_error {s : State} (h : s.ilen ≠ 9) : execGunpack s = .next (raiseError .glyphLen s) := if_neg h

theorem execFrame_ok {s : State} (h : s.ilen.toNat ≤ 15) :
    execFrame s = .next (succeed (outBytes (frameBytes (inputBytes s)) s)) := if_pos h

theorem execFrame_error {s : State} (h : ¬ s.ilen.toNat ≤ 15) : execFrame s = .next (raiseError .tooLarge s) := if_neg h

theorem execFramee_ok {s : State} (h : s.ilen.toNat ≤ 15) :
    execFramee s = .next (succeed (outBytes (Aes.encryptBytes s.key (frameBytes (inputBytes s))) s)) := if_pos h

theorem execFramee_error {s : State} (h : ¬ s.ilen.toNat ≤ 15) :
    execFramee s = .next (raiseError .tooLarge s) := if_neg h

theorem execChunk_ok {s : State} (h : s.cpos.toNat < s.ilen.toNat) :
    execChunk s = .next (emitChunk (frameBytes (chunkData s)) s) := if_neg (by omega)

theorem execChunk_error {s : State} (h : s.ilen.toNat ≤ s.cpos.toNat) :
    execChunk s = .next (raiseError .exhausted s) := if_pos h

theorem execChunke_ok {s : State} (h : s.cpos.toNat < s.ilen.toNat) :
    execChunke s = .next (emitChunk (Aes.encryptBytes s.key (frameBytes (chunkData s))) s) := if_neg (by omega)

theorem execChunke_error {s : State} (h : s.ilen.toNat ≤ s.cpos.toNat) :
    execChunke s = .next (raiseError .exhausted s) := if_pos h

/-- Every operation goes on to a next state, with one of the effects of `OpEffect`. -/
theorem exec_effect (i : Instr) (s : State) :
    ∃ t, exec i s = .next t ∧ OpEffect (Safety.movesCursor i) (Safety.writesOutput i) s t := by
  cases i
  case nop => exact ⟨_, rfl, .status rfl⟩
  case enc =>
    by_cases h : s.ilen = 16
    · exact ⟨_, execEnc_ok h, .output _ (by simp) rfl⟩
    · exact ⟨_, execEnc_error h, .error _ (by decide)⟩
  case dec =>
    by_cases h : s.ilen = 16
    · exact ⟨_, execDec_ok h, .output _ (by simp) rfl⟩
    · exact ⟨_, execDec_error h, .error _ (by decide)⟩
  case gpack =>
    by_cases h : s.ilen = 12
    · by_cases hp : (ibufSlice s 0 12).all padClear = true
      · exact ⟨_, execGpack_ok h hp, .output _ (by simp [packGlyph_length]) rfl⟩
      · exact ⟨_, execGpack_pad h hp, .error _ (by decide)⟩
    · exact ⟨_, execGpack_error h, .error _ (by decide)⟩
  case gunpack =>
    by_cases h : s.ilen = 9
    · exact ⟨_, execGunpack_ok h, .output _ (by simp [unpackGlyph_length]) rfl⟩
    · exact ⟨_, execGunpack_error h, .error _ (by decide)⟩
  case frame =>
    by_cases h : s.ilen.toNat ≤ 15
    · exact ⟨_, execFrame_ok h, .output _ (.inr (.inr (frameBytes_length _ (by simpa [inputBytes] using h)))) rfl⟩
    · exact ⟨_, execFrame_error h, .error _ (by decide)⟩
  case framee =>
    by_cases h : s.ilen.toNat ≤ 15
    · exact ⟨_, execFramee_ok h, .output _ (by simp) rfl⟩
    · exact ⟨_, execFramee_error h, .error _ (by decide)⟩
  case crst => exact ⟨_, rfl, .restart rfl rfl⟩
  case chunk =>
    by_cases h : s.ilen.toNat ≤ s.cpos.toNat
    · exact ⟨_, execChunk_error h, .error _ (by decide)⟩
    · have hc : s.cpos.toNat < s.ilen.toNat := by omega
      exact ⟨_, execChunk_ok hc, .chunk _ (frameBytes_length _ (by simpa using chunkLen_le s)) hc rfl rfl⟩
  case chunke =>
    by_cases h : s.ilen.toNat ≤ s.cpos.toNat
    · exact ⟨_, execChunke_error h, .error _ (by decide)⟩
    · have hc : s.cpos.toNat < s.ilen.toNat := by omega
      exact ⟨_, execChunke_ok hc, .chunk _ (by simp) hc rfl rfl⟩
  case cmdLedon => exact ⟨_, rfl, commandEncrypted_effect .ledon s⟩
  case cmdLedoff => exact ⟨_, rfl, commandEncrypted_effect .ledoff s⟩
  case cmdMode => exact ⟨_, rfl, commandEncrypted_effect .mode s⟩
  case cmdSpeed => exact ⟨_, rfl, commandEncrypted_effect .speed s⟩
  case cmdLight => exact ⟨_, rfl, commandEncrypted_effect .light s⟩
  case cmdDats => exact ⟨_, rfl, commandEncrypted_effect .dats s⟩
  case cmdDatcp => exact ⟨_, rfl, commandEncrypted_effect .datcp s⟩
  case cmdpLedon => exact ⟨_, rfl, commandPlain_effect .ledon s⟩
  case cmdpLedoff => exact ⟨_, rfl, commandPlain_effect .ledoff s⟩
  case cmdpMode => exact ⟨_, rfl, commandPlain_effect .mode s⟩
  case cmdpSpeed => exact ⟨_, rfl, commandPlain_effect .speed s⟩
  case cmdpLight => exact ⟨_, rfl, commandPlain_effect .light s⟩
  case cmdpDats => exact ⟨_, rfl, commandPlain_effect .dats s⟩
  case cmdpDatcp => exact ⟨_, rfl, commandPlain_effect .datcp s⟩

/-- The effect of an operation whose next state is known. -/
theorem effect_of_exec {i : Instr} {s t : State} (h : exec i s = .next t) :
    OpEffect (Safety.movesCursor i) (Safety.writesOutput i) s t := by
  obtain ⟨u, hu, he⟩ := exec_effect i s
  obtain rfl : u = t := by rw [hu] at h; exact Host.Outcome.next.inj h
  exact he

/-- What no operation writes: OPR, ILEN, ARG, IBUF, KEY, and the host's side (R23, R25, R26, R28, R31). -/
theorem OpEffect.frame {moves outputs : Bool} {s t : State} (h : OpEffect moves outputs s t) :
    t.opr = s.opr ∧ t.ilen = s.ilen ∧ t.arg = s.arg ∧ t.ibuf = s.ibuf ∧ t.powerUps = s.powerUps ∧ t.key = s.key ∧
      t.script = s.script ∧ t.hostPos = s.hostPos ∧ t.trace = s.trace := by
  cases h <;> exact ⟨rfl, rfl, rfl, rfl, rfl, rfl, rfl, rfl, rfl⟩

/-- An OPR write sets OPR and then does what an operation, or the reserved-opcode rule, does (R23, R71). -/
theorem performOpcode_effect (v : Byte) (s : State) :
    ∃ t moves outputs, performOpcode v s = .next t ∧ OpEffect moves outputs { s with opr := v } t := by
  unfold performOpcode
  split
  · next i _ _ =>
    obtain ⟨t, ht, he⟩ := exec_effect i { s with opr := v }
    exact ⟨t, _, _, ht, he⟩
  · exact ⟨_, false, false, rfl, .error _ (by decide)⟩

/-- What HostWrite may do (R53, R55). -/
inductive WriteEffect (s : State) : State → Prop where
  | operation (v : Byte) (moves outputs : Bool) (t : State) (h : OpEffect moves outputs { s with opr := v } t) :
      WriteEffect s t
  | ignored : WriteEffect s s
  | ilen (n : Half) : WriteEffect s { s with ilen := n }
  | arg (n : Half) : WriteEffect s { s with arg := n }
  | ibuf (i : Nat) (hi : i < Config.ibufSize) (v : Byte) : WriteEffect s (writeIbuf s i v)

theorem writeRegister_effect (a : Nat) (v : Byte) (s : State) : WriteEffect s (writeRegister a v s) := by
  unfold writeRegister
  split
  · exact .ilen _
  · exact .ilen _
  · exact .arg _
  · exact .arg _
  · exact .ignored

/-- HostWrite always goes on (R50: every address is decoded). -/
theorem hostWrite_effect (a : HostAddr) (v : Byte) (s : State) : ∃ t, hostWrite a v s = .next t ∧ WriteEffect s t := by
  unfold hostWrite
  split
  · obtain ⟨t, moves, outputs, ht, he⟩ := performOpcode_effect v s
    exact ⟨t, ht, .operation v moves outputs t he⟩
  · split
    · exact ⟨_, rfl, writeRegister_effect _ v s⟩
    · exact ⟨_, rfl, .ibuf _ (by have := a.isLt; simp only [Config.ibufSize]; omega) v⟩

/-- What a step may do: nothing (the host has ended), a host access that records bytes and moves the host, a host
write, or a platform event. -/
inductive StepEffect (s : State) : State → Prop where
  | idle : StepEffect s s
  | hostOnly (pos : Nat) (trace : List Byte) : StepEffect s { s with hostPos := pos, trace := trace }
  | write (t : State) (h : WriteEffect (advanceHost s) t) : StepEffect s t
  | reset : StepEffect s (advanceHost (resetBlock s))
  | power : StepEffect s (advanceHost (powerCycleBlock s))

theorem branchHost_effect {a : HostAddr} {l : Label} {taken : Byte → Bool} {s t : State}
    (h : branchHost a l taken s = .next t) : StepEffect s t := by
  unfold branchHost jumpTo at h
  split at h
  · split at h
    · cases h; exact .hostOnly _ _
    · cases h
  · cases h; exact .hostOnly _ _

/-- The effect of a step that answers a next state. -/
theorem effect_of_step {s t : State} (h : step s = .next t) : StepEffect s t := by
  unfold step runNext runItem at h
  split at h
  · split at h
    · obtain ⟨u, hu, he⟩ := hostWrite_effect _ _ (advanceHost s)
      rw [hu] at h
      cases h
      exact .write _ he
    · cases h; exact .hostOnly _ _
    · cases h; exact .hostOnly _ _
    · exact branchHost_effect h
    · exact branchHost_effect h
    · cases h; exact .idle
    · cases h; exact .reset
    · cases h; exact .power
  · cases h; exact .idle

end Sys2Proof.Machine
end

