-- ==== Sys2Proof/Laws/Glyph.lean ====
section
/-! SUPPORT. The glyph layout: the table and the equations of R141 name the same bijection, and packing and unpacking
cell by cell. -/

namespace Sys2Proof.Machine

/-- The table of R141 undoes its equations on every cell. -/
theorem glyphCell_glyphPlace : ∀ c < 6, ∀ r < 12, glyphCell (glyphPlace c r).1 (glyphPlace c r).2 = (c, r) := by decide

/-- The equations of R141 undo its table on every bit. -/
theorem glyphPlace_glyphCell :
    ∀ j < 9, ∀ b < 8, glyphPlace (glyphCell j b).1 (glyphCell j b).2 = (j, b) := by decide

/-- Every cell has a place among the 72 bits. -/
theorem glyphPlace_lt : ∀ c < 6, ∀ r < 12, (glyphPlace c r).1 < 9 ∧ (glyphPlace c r).2 < 8 := by decide

/-- Every bit holds a cell of the grid. -/
theorem glyphCell_lt : ∀ j < 9, ∀ b < 8, (glyphCell j b).1 < 6 ∧ (glyphCell j b).2 < 12 := by decide

theorem packGlyph_getLsbD (rows : List Byte) (j b : Nat) (hj : j < 9) (hb : b < 8) :
    ((packGlyph rows).getD j 0).getLsbD b = gridCell rows (glyphCell j b).1 (glyphCell j b).2 := by
  simp only [packGlyph, List.getD_eq_getElem?_getD, List.getElem?_map, List.getElem?_range hj, Option.map_some,
    Option.getD_some]
  exact byteOfBits_getLsbD _ b hb

theorem unpackGlyph_getLsbD (p : List Byte) (r b : Nat) (hr : r < 12) (hb : b < 8) :
    ((unpackGlyph p).getD r 0).getLsbD b = (decide (2 ≤ b) && packedCell p (7 - b) r) := by
  simp only [unpackGlyph, List.getD_eq_getElem?_getD, List.getElem?_map, List.getElem?_range hr, Option.map_some,
    Option.getD_some]
  exact byteOfBits_getLsbD _ b hb

/-- A cell of a packed grid is the cell of the grid. -/
theorem packedCell_packGlyph (rows : List Byte) (c r : Nat) (hc : c < 6) (hr : r < 12) :
    packedCell (packGlyph rows) c r = gridCell rows c r := by
  obtain ⟨h₁, h₂⟩ := glyphPlace_lt c hc r hr
  rw [packedCell, packGlyph_getLsbD _ _ _ h₁ h₂, glyphCell_glyphPlace c hc r hr]

/-- A cell of an unpacked segment is the cell of the segment. -/
theorem gridCell_unpackGlyph (p : List Byte) (c r : Nat) (hc : c < 6) (hr : r < 12) :
    gridCell (unpackGlyph p) c r = packedCell p c r := by
  rw [gridCell, unpackGlyph_getLsbD p r (7 - c) hr (by omega)]
  simp [show 2 ≤ 7 - c by omega, show 7 - (7 - c) = c by omega]

theorem padClear_iff (row : Byte) : padClear row = true ↔ row.getLsbD 0 = false ∧ row.getLsbD 1 = false := by
  revert row; decide

end Sys2Proof.Machine
end

