-- ==== Sys2Proof/Laws/PerInstr.lean ====
section
/-! SUPPORT. Statements about every operation as syntax, one lemma per constructor. -/

namespace Sys2Proof.Laws.OneByte

/-- "Every operation is encoded as one byte" whose fields are MAJ and SUB (R70). -/
def Statement (i : Instr) : Prop :=
  (encode i).length = 1 ∧ (encodeByte i).extractLsb' 4 4 = i.maj ∧ (encodeByte i).extractLsb' 0 4 = i.sub

theorem nop : Statement .nop := ⟨rfl, rfl, rfl⟩
theorem enc : Statement .enc := ⟨rfl, rfl, rfl⟩
theorem dec : Statement .dec := ⟨rfl, rfl, rfl⟩
theorem gpack : Statement .gpack := ⟨rfl, rfl, rfl⟩
theorem gunpack : Statement .gunpack := ⟨rfl, rfl, rfl⟩
theorem frame : Statement .frame := ⟨rfl, rfl, rfl⟩
theorem framee : Statement .framee := ⟨rfl, rfl, rfl⟩
theorem crst : Statement .crst := ⟨rfl, rfl, rfl⟩
theorem chunk : Statement .chunk := ⟨rfl, rfl, rfl⟩
theorem chunke : Statement .chunke := ⟨rfl, rfl, rfl⟩
theorem cmdLedon : Statement .cmdLedon := ⟨rfl, rfl, rfl⟩
theorem cmdLedoff : Statement .cmdLedoff := ⟨rfl, rfl, rfl⟩
theorem cmdMode : Statement .cmdMode := ⟨rfl, rfl, rfl⟩
theorem cmdSpeed : Statement .cmdSpeed := ⟨rfl, rfl, rfl⟩
theorem cmdLight : Statement .cmdLight := ⟨rfl, rfl, rfl⟩
theorem cmdDats : Statement .cmdDats := ⟨rfl, rfl, rfl⟩
theorem cmdDatcp : Statement .cmdDatcp := ⟨rfl, rfl, rfl⟩
theorem cmdpLedon : Statement .cmdpLedon := ⟨rfl, rfl, rfl⟩
theorem cmdpLedoff : Statement .cmdpLedoff := ⟨rfl, rfl, rfl⟩
theorem cmdpMode : Statement .cmdpMode := ⟨rfl, rfl, rfl⟩
theorem cmdpSpeed : Statement .cmdpSpeed := ⟨rfl, rfl, rfl⟩
theorem cmdpLight : Statement .cmdpLight := ⟨rfl, rfl, rfl⟩
theorem cmdpDats : Statement .cmdpDats := ⟨rfl, rfl, rfl⟩
theorem cmdpDatcp : Statement .cmdpDatcp := ⟨rfl, rfl, rfl⟩

end Sys2Proof.Laws.OneByte
end

