-- ==== Sys2Proof/Tests/Slice0.lean ====
section
/-! SUPPORT. The model's own tests: each opcode's decoding from its fields written bit by bit (30_encoding.md R70, R72),
the checks of WellFormed on ill-formed terms, single operations against the vectors of 95_test_vectors.md, and a
witness for the hypotheses of each obligation. -/

namespace Sys2Proof.Tests

open Sys2Proof Sys2Proof.Machine Sys2Proof.Safety

/-! Decoding (R70: MAJ in [7:4], SUB in [3:0]; the rows of R72). -/

theorem test_decode_nop : decode [0b00000000] = .ok (.nop, []) := by decide

theorem test_decode_cipher : decode [0b00010000] = .ok (.enc, []) ∧ decode [0b00010001] = .ok (.dec, []) := by decide

theorem test_decode_glyph : decode [0b00100000] = .ok (.gpack, []) ∧ decode [0b00100001] = .ok (.gunpack, []) := by decide

theorem test_decode_frame : decode [0b00110000] = .ok (.frame, []) ∧ decode [0b00110001] = .ok (.framee, []) := by decide

theorem test_decode_chunk : decode [0b01000000] = .ok (.crst, []) ∧ decode [0b01000001] = .ok (.chunk, []) ∧
    decode [0b01000010] = .ok (.chunke, []) := by decide

theorem test_decode_encrypted_commands :
    decode [0b01010000] = .ok (.cmdLedon, []) ∧ decode [0b01010001] = .ok (.cmdLedoff, []) ∧
    decode [0b01010010] = .ok (.cmdMode, []) ∧ decode [0b01010011] = .ok (.cmdSpeed, []) ∧
    decode [0b01010100] = .ok (.cmdLight, []) ∧ decode [0b01010101] = .ok (.cmdDats, []) ∧
    decode [0b01010110] = .ok (.cmdDatcp, []) := by decide

theorem test_decode_plaintext_commands :
    decode [0b01011000] = .ok (.cmdpLedon, []) ∧ decode [0b01011001] = .ok (.cmdpLedoff, []) ∧
    decode [0b01011010] = .ok (.cmdpMode, []) ∧ decode [0b01011011] = .ok (.cmdpSpeed, []) ∧
    decode [0b01011100] = .ok (.cmdpLight, []) ∧ decode [0b01011101] = .ok (.cmdpDats, []) ∧
    decode [0b01011110] = .ok (.cmdpDatcp, []) := by decide

/-- R74: the edges of the reserved ranges, and the two unknown commands (CID = 7). -/
theorem test_decode_reserved : [(0x01 : Byte), 0x0F, 0x12, 0x1F, 0x22, 0x2F, 0x32, 0x3F, 0x43, 0x4F, 0b01010111,
    0b01011111, 0x60, 0xFF].all (fun op => decide (decode [op] = .error (.reserved op))) = true := by decide

theorem test_decode_empty : decode [] = .error .noByte := by decide

/-! WellFormed: each check on an ill-formed term and on a well-formed one (R77, R78). -/

theorem test_wf_duplicate_label : labelsDistinct [.label 1, .rd 0x00001, .label 1] = false := by decide

theorem test_wf_undefined_target : targetsDefined [.label 1, .jz 0x00001 0x20 2] = false ∧
    targetsDefined [.jnz 0x00001 0x20 2] = false := by decide

theorem test_wf_script_refused : scriptWf [.label 1, .label 1] = false ∧ scriptWf [.jz 0x00001 0x00 0] = false := by decide

theorem test_wf_script_accepted : scriptWf [.label 1, .jnz 0x00001 0x20 2, .jz 0x00001 0x00 1, .label 2, .halt] = true := by
  decide

theorem test_wf_load : (ScriptLine.load 65536 [0xAA]).wf = false ∧ (ScriptLine.load 65535 [0xAA]).wf = true := by decide

theorem test_wf_input_too_long : (ScriptLine.input (List.replicate 65536 0x00)).wf = false := by
  rw [ScriptLine.wf, List.length_replicate]; rfl

theorem test_wf_input_longest : (ScriptLine.input (List.replicate 65535 0x00)).wf = true := by
  rw [ScriptLine.wf, List.length_replicate]; rfl

/-! Single operations. `k0` is the key K0 of 95_test_vectors.md. -/

def k0 : Block :=
  #v[0x00, 0x01, 0x02, 0x03, 0x04, 0x05, 0x06, 0x07, 0x08, 0x09, 0x0a, 0x0b, 0x0c, 0x0d, 0x0e, 0x0f]

/-- After reset, the host has written `bytes` at the start of IBUF and their count to ILEN. -/
def loaded (bytes : List Byte) : State :=
  { State.reset with
    key := k0, ilen := BitVec.ofNat 16 bytes.length, ibuf := bytes.zipIdx.map fun bk => (bk.2, bk.1) }

/-- After reset, ILEN and ARG have been written. -/
def withRegs (ilen arg : Half) : State := { State.reset with key := k0, ilen := ilen, arg := arg }

/-- OBUF, OLEN and STATUS after an operation. -/
def outcome (i : Instr) (s : State) : Option (List Byte × Nat × Byte) :=
  match exec i s with
  | .next t => some (t.obuf.toList, t.olen.toNat, statusByte t)
  | .fault _ => none
  | .refused _ => none

/-- CPOS, CCNT and STATUS after an operation. -/
def cursorAfter (i : Instr) (s : State) : Option (Nat × Nat × Byte) :=
  match exec i s with
  | .next t => some (t.cpos.toNat, t.ccnt.toNat, statusByte t)
  | .fault _ => none
  | .refused _ => none

/-- Sixteen zero bytes: OBUF as reset leaves it. -/
def zeros16 : List Byte := List.replicate 16 0x00

/-- CIPH-10. -/
theorem test_enc_length : outcome .enc (withRegs 17 0) = some (zeros16, 0, 0x01) := by decide +kernel

/-- CIPH-12. -/
theorem test_dec_length : outcome .dec (withRegs 15 0) = some (zeros16, 0, 0x01) := by decide +kernel

/-- CIPH-14, the last round key. -/
theorem test_round_key_10 : (Aes.roundKey k0 10).toList =
    [0x13, 0x11, 0x1d, 0x7f, 0xe3, 0x94, 0x4a, 0x17, 0xf3, 0x07, 0xa7, 0x8b, 0x4d, 0x2b, 0x30, 0xc5] := by decide +kernel

/-- GLY-18. -/
theorem test_gpack : outcome .gpack (loaded [0xf0, 0x88, 0x88, 0x88, 0xf0, 0x88, 0x88, 0x88, 0x88, 0xf0, 0x00, 0x00]) =
    some ([0xff, 0xc4, 0x88, 0x88, 0x44, 0x88, 0x77, 0x80, 0, 0, 0, 0, 0, 0, 0, 0], 9, 0x00) := by decide +kernel

/-- GLY-28: the length error comes before the pad error. -/
theorem test_gpack_priority : outcome .gpack (loaded [0x03, 0, 0, 0, 0, 0, 0, 0, 0, 0, 0]) = some (zeros16, 0, 0x03) := by
  decide +kernel

/-- GLY-20. -/
theorem test_gunpack : outcome .gunpack (loaded [0x01, 0x02, 0x03, 0x04, 0x05, 0x06, 0x07, 0x08, 0x09]) =
    some ([0x00, 0x00, 0x00, 0x00, 0x04, 0x38, 0x58, 0xcc, 0x04, 0x10, 0x40, 0x10, 0, 0, 0, 0], 12, 0x00) := by
  decide +kernel

/-- GLY-31. -/
theorem test_gunpack_length : outcome .gunpack (withRegs 12 0) = some (zeros16, 0, 0x03) := by decide +kernel

/-- FRM-2. -/
theorem test_frame : outcome .frame (loaded [0xaa, 0xbb, 0xcc]) =
    some ([0x03, 0xaa, 0xbb, 0xcc, 0, 0, 0, 0, 0, 0, 0, 0, 0, 0, 0, 0], 16, 0x00) := by decide +kernel

/-- FRM-6. -/
theorem test_frame_too_large : outcome .frame (withRegs 16 0) = some (zeros16, 0, 0x02) := by decide +kernel

/-- FRM-7. -/
theorem test_framee_too_large : outcome .framee (withRegs 65535 0) = some (zeros16, 0, 0x02) := by decide +kernel

/-- The state of CHK-6 before its fourth CHUNK: 45 of 54 bytes emitted, in three chunks. -/
def midStream : State :=
  { loaded ((List.range 54).map (BitVec.ofNat 8)) with cpos := 45, ccnt := 3 }

/-- CHK-11. -/
theorem test_crst : cursorAfter .crst midStream = some (0, 0, 0x00) := by decide +kernel

/-- CHK-9. -/
theorem test_crst_empty : cursorAfter .crst (loaded []) = some (0, 0, 0x20) := by decide +kernel

/-- CHK-6, CHUNK 4. -/
theorem test_chunk : outcome .chunk midStream =
      some ([0x09, 0x2d, 0x2e, 0x2f, 0x30, 0x31, 0x32, 0x33, 0x34, 0x35, 0, 0, 0, 0, 0, 0], 16, 0x30) ∧
    cursorAfter .chunk midStream = some (54, 4, 0x30) := by decide +kernel

/-- CHK-6, CHUNK 5. -/
theorem test_chunk_exhausted : cursorAfter .chunk { midStream with cpos := 54, ccnt := 4 } = some (54, 4, 0x25) := by
  decide +kernel

/-- CHK-8. -/
theorem test_chunke_exhausted : cursorAfter .chunke (loaded []) = some (0, 0, 0x25) := by decide +kernel

/-- CMD-17: a command reads no ILEN. -/
theorem test_cmdp_ledon : outcome .cmdpLedon (withRegs 20 0) =
    some ([0x05, 0x4c, 0x45, 0x44, 0x4f, 0x4e, 0, 0, 0, 0, 0, 0, 0, 0, 0, 0], 16, 0x00) := by decide +kernel

/-- WK-1. -/
theorem test_cmdp_ledoff : outcome .cmdpLedoff (withRegs 0 0) =
    some ([0x06, 0x4c, 0x45, 0x44, 0x4f, 0x46, 0x46, 0, 0, 0, 0, 0, 0, 0, 0, 0], 16, 0x20) := by decide +kernel

/-- CMD-4. -/
theorem test_cmdp_mode : outcome .cmdpMode (withRegs 0 0x0003) =
    some ([0x05, 0x4d, 0x4f, 0x44, 0x45, 0x03, 0, 0, 0, 0, 0, 0, 0, 0, 0, 0], 16, 0x20) := by decide +kernel

/-- CMD-8: ARG[15:8] is ignored. -/
theorem test_cmdp_speed : outcome .cmdpSpeed (withRegs 0 0x0132) =
    some ([0x06, 0x53, 0x50, 0x45, 0x45, 0x44, 0x32, 0, 0, 0, 0, 0, 0, 0, 0, 0], 16, 0x20) := by decide +kernel

/-- CMD-10. -/
theorem test_cmdp_light : outcome .cmdpLight (withRegs 0 0x00FF) =
    some ([0x06, 0x4c, 0x49, 0x47, 0x48, 0x54, 0xff, 0, 0, 0, 0, 0, 0, 0, 0, 0], 16, 0x20) := by decide +kernel

/-- R169: ARG is big-endian in the frame. -/
theorem test_cmdp_dats : outcome .cmdpDats (withRegs 0 0x1234) =
    some ([0x08, 0x44, 0x41, 0x54, 0x53, 0x12, 0x34, 0, 0, 0, 0, 0, 0, 0, 0, 0], 16, 0x20) := by decide +kernel

/-- CMD-15. -/
theorem test_cmdp_datcp : outcome .cmdpDatcp (withRegs 0 0) =
    some ([0x05, 0x44, 0x41, 0x54, 0x43, 0x50, 0, 0, 0, 0, 0, 0, 0, 0, 0, 0], 16, 0x20) := by decide +kernel

/-- R210's example: STATUS 0x25 becomes 0x20. -/
theorem test_nop_clears_status : outcome .nop { loaded [] with err := .exhausted } = some (zeros16, 0, 0x20) := by
  decide +kernel

/-- MISC-5: NOP clears LAST. -/
theorem test_nop_clears_last :
    outcome .nop { loaded [0x00] with cpos := 1, ccnt := 1, last := true } = some (zeros16, 0, 0x20) := by decide +kernel

/-! The host port. -/

/-- What the host reads at the addresses after a write. -/
def readsAfterWrite (a : HostAddr) (v : Byte) (s : State) (at_ : List HostAddr) : Option (List Byte) :=
  match hostWrite a v s with
  | .next t => some (at_.map (hostRead t))
  | .fault _ => none
  | .refused _ => none

/-- MISC-3. -/
theorem test_reserved_opcode : [(0x01 : Byte), 0x57, 0x5F, 0xFF].all (fun v =>
    readsAfterWrite 0x00000 v (withRegs 16 0) [0x00000, 0x00001, 0x00006, 0x00008, 0x0000A, 0x00010] ==
      some [v, 0x06, 0x00, 0x00, 0x00, 0x00]) = true := by decide +kernel

/-- MISC-6: read-only and reserved addresses ignore writes. -/
theorem test_ignored_writes : [(0x00001 : HostAddr), 0x00006, 0x00010, 0x0000B, 0x00020].all (fun a =>
    readsAfterWrite a 0xFF (withRegs 0 0) [0x00001, 0x00006, 0x00010, 0x0000B, 0x00020, 0x0FFFF] ==
      some [0x20, 0x00, 0x00, 0x00, 0x00, 0x00]) = true := by decide +kernel

/-- MISC-7, MISC-8: the low byte first, then the high byte. -/
theorem test_ilen_bytes : readsAfterWrite 0x00003 0x10 (withRegs 0 0) [0x00002, 0x00003, 0x00001] = some [0x00, 0x10, 0x00] ∧
    readsAfterWrite 0x00002 0x01 (withRegs 0x0010 0) [0x00002, 0x00003] = some [0x01, 0x10] := by decide +kernel

/-- MISC-10, at both ends of IBUF. -/
theorem test_ibuf_bytes : readsAfterWrite 0x10000 0xA5 (withRegs 0 0) [0x10000] = some [0xA5] ∧
    readsAfterWrite 0x1FFFF 0x5A (withRegs 0 0) [0x1FFFF] = some [0x5A] := by decide +kernel

/-- RST-1 to RST-4. -/
theorem test_reset_reads : hostRead State.reset 0x00000 = 0x00 ∧ hostRead State.reset 0x00001 = 0x20 ∧
    (List.range 9).map (fun k => hostRead State.reset (BitVec.ofNat 17 (k + 2))) = List.replicate 9 0x00 ∧
    (List.range 16).map (fun k => hostRead State.reset (BitVec.ofNat 17 (k + 0x10))) = zeros16 := by decide +kernel

/-- The reads of the canonical form: writing keeps the list in order and replaces an entry. -/
theorem test_ibuf_canonical : Memory.insert (Memory.insert [(3, 0x33), (9, 0x99)] 5 0x55) 9 0x11 =
    [(3, 0x33), (5, 0x55), (9, 0x11)] := by decide

/-! Witnesses: for each obligation with hypotheses, a state and operands that meet them. -/

/-- A host standing at the one item. -/
def standingAt (item : HostItem) : State := { State.reset with script := [item] }

theorem witness_DecodeAndEncodeAgree : decode [0x5E, 0xFF] = .ok (.cmdpDatcp, [0xFF]) := by decide

theorem witness_ReservedOpcodesAreIllegal : reservedOpcode 0x01 = true ∧ reservedOpcode 0x57 = true ∧
    reservedOpcode 0xFF = true ∧ reservedOpcode 0x00 = false ∧ reservedOpcode 0x5E = false := by decide

theorem witness_ResetRegisterValues : State.reset = State.reset ∧ ∃ u, resetBlock midStream = resetBlock u :=
  ⟨rfl, midStream, rfl⟩

theorem witness_PlatformResetStep : currentItem (standingAt .platformReset) = some .platformReset := rfl

theorem witness_PowerCycleFreesIbuf : currentItem (standingAt .powerCycle) = some .powerCycle := rfl

/-- A state that meets the invariant and steps on: a CHUNK that emits the final chunk of one byte. -/
theorem witness_StepKeepsInvariant :
    let s : State := { loaded [0xAB] with script := [.wr 0x00000 0x41] }
    Inv s ∧ ∃ t, step s = .next t ∧ t.last = true ∧ t.ccnt = 1 := by
  refine ⟨⟨by decide, .inl rfl, ?_, ⟨Nat.le_refl _, Nat.zero_le _⟩, fun h => Bool.noConfusion h⟩, _, rfl, rfl, rfl⟩
  intro k _
  revert k
  decide

theorem witness_StepNeverChangesKey : ∃ t, step (standingAt .powerCycle) = .next t := ⟨_, rfl⟩

theorem witness_StepRunsDecodedOperation :
    currentItem (standingAt (.wr 0x00000 0x42)) = some (.wr 0x00000 0x42) ∧ decode [0x42] = .ok (.chunke, []) ∧
    currentItem (standingAt (.wr 0x00000 0x5F)) = some (.wr 0x00000 0x5F) ∧ decode [0x5F] = .error (.reserved 0x5F) := by
  decide +kernel

theorem witness_FetchWordRunsNext : decodeTableWord 8 0x5E = some .cmdpDatcp ∧ decodeTableWord 8 0x00 = some .nop := by
  decide

theorem witness_OprHoldsLastOpcode :
    exec .nop State.reset = .next (succeed State.reset) ∧ (0x1FFFF : HostAddr).toNat ≠ 0 ∧
      hostWrite 0x1FFFF 0xA5 State.reset = .next (writeIbuf State.reset 65535 0xA5) := ⟨rfl, by decide, rfl⟩

/-- The edges of the ranges of R53. -/
theorem witness_AddressMap : (0x0000B : HostAddr).toNat = 0x0000B ∧ (0x0000F : HostAddr).toNat = 0x0000F ∧
    (0x00010 : HostAddr).toNat = 0x00010 ∧ (0x0001F : HostAddr).toNat = 0x0001F ∧ (0x00020 : HostAddr).toNat = 0x00020 ∧
    (0x0FFFF : HostAddr).toNat = 0x0FFFF ∧ (0x10000 : HostAddr).toNat = 0x10000 ∧ (0x1FFFF : HostAddr).toNat = 0x1FFFF ∧
    (0x00006 : HostAddr).toNat = 0x00006 := by decide

/-- The edges of the ranges that are read back and of those that are not. -/
theorem witness_ReadAfterWrite : (0x00001 : HostAddr).toNat ≠ 0 ∧ (2 ≤ (0x00002 : HostAddr).toNat ∧
    (0x00005 : HostAddr).toNat ≤ 5) ∧ (0x00006 : HostAddr) ≠ 0x00005 ∧ 6 ≤ (0x00006 : HostAddr).toNat ∧
    (6 ≤ (0x0FFFF : HostAddr).toNat ∧ (0x0FFFF : HostAddr).toNat < 0x10000) ∧
    0x10000 ≤ (0x10000 : HostAddr).toNat ∧ (0x10000 : HostAddr) ≠ 0x0FFFF := by decide

theorem witness_EncRule : (withRegs 16 0).ilen.toNat = 16 ∧ (withRegs 15 0).ilen.toNat ≠ 16 ∧
    (withRegs 17 0).ilen.toNat ≠ 16 := by decide

theorem witness_DecRule : (withRegs 16 0).ilen.toNat = 16 ∧ (withRegs 0 0).ilen.toNat ≠ 16 ∧
    (withRegs 65535 0).ilen.toNat ≠ 16 := by decide

/-- A state whose first 16 IBUF bytes are those of a block. -/
def holding (b : Block) (n : Half) : State :=
  { State.reset with key := k0, ilen := n, ibuf := b.toList.zipIdx.map fun bk => (bk.2, bk.1) }

/-- A state that holds a block reads it back byte by byte. -/
theorem readIbuf_holding (b : Block) (n : Half) : ∀ k < 16, readIbuf (holding b n) k = b.toList.getD k 0 := by
  intro k hk
  obtain ⟨l, hl⟩ := b
  obtain ⟨l⟩ := l
  match l, hl with
  | [b0, b1, b2, b3, b4, b5, b6, b7, b8, b9, b10, b11, b12, b13, b14, b15], _ => interval_cases k <;> rfl

theorem readIbuf_holding_obuf (t : State) (n : Half) : ∀ k < 16, readIbuf (holding t.obuf n) k = readObuf t k :=
  readIbuf_holding t.obuf n

/-- All the hypotheses of both parts together, for the states `holding` builds from the first output. -/
theorem witness_DecUndoesEnc : ∀ i ∈ [Instr.enc, Instr.dec], ∃ t, exec i (holding k0 16) = .next t ∧
    (holding k0 16).ilen.toNat = 16 ∧ (holding t.obuf 16).key = (holding k0 16).key ∧
    (holding t.obuf 16).ilen.toNat = 16 ∧ ∀ k < 16, readIbuf (holding t.obuf 16) k = readObuf t k := by
  intro i hi
  simp only [List.mem_cons, List.not_mem_nil, or_false] at hi
  rcases hi with rfl | rfl
  · exact ⟨_, execEnc_ok rfl, rfl, rfl, rfl, readIbuf_holding_obuf _ _⟩
  · exact ⟨_, execDec_ok rfl, rfl, rfl, rfl, readIbuf_holding_obuf _ _⟩

/-- The twelve grid bytes of an all-on glyph (GLY-2), and one with the last pad bit set (GLY-26). -/
def gridOn : State := loaded (List.replicate 12 0xfc)

def gridPad : State := loaded [0, 0, 0, 0, 0, 0, 0, 0, 0, 0, 0, 0x01]

theorem witness_GpackRule :
    (gridOn.ilen.toNat = 12 ∧ ∀ r < 12, (readIbuf gridOn r).getLsbD 0 = false ∧ (readIbuf gridOn r).getLsbD 1 = false) ∧
    (gridPad.ilen.toNat = 12 ∧ ∃ r < 12, (readIbuf gridPad r).getLsbD 0 = true ∨ (readIbuf gridPad r).getLsbD 1 = true) ∧
    (withRegs 11 0).ilen.toNat ≠ 12 ∧ (withRegs 13 0).ilen.toNat ≠ 12 := by
  refine ⟨⟨rfl, by decide +kernel⟩, ⟨rfl, 11, by decide, .inl (by decide +kernel)⟩, by decide, by decide⟩

theorem witness_GunpackRule : (withRegs 9 0).ilen.toNat = 9 ∧ (withRegs 8 0).ilen.toNat ≠ 9 ∧
    (withRegs 10 0).ilen.toNat ≠ 9 := by decide

/-- The hypotheses of both round trips (GLY-2): the first output is the second input. -/
theorem witness_GlyphRoundTrip :
    let packed := loaded (List.replicate 9 0xff)
    (∃ t, exec .gpack gridOn = .next t ∧ packed.ilen.toNat = 9 ∧ ∀ j < 9, readIbuf packed j = readObuf t j) ∧
    ∃ t, exec .gunpack packed = .next t ∧ gridOn.ilen.toNat = 12 ∧ ∀ r < 12, readIbuf gridOn r = readObuf t r := by
  refine ⟨⟨_, execGpack_ok rfl (by decide +kernel), rfl, by decide +kernel⟩, ⟨_, execGunpack_ok rfl, rfl, by decide +kernel⟩⟩

theorem witness_FrameRule : (withRegs 0 0).ilen.toNat ≤ 15 ∧ (withRegs 15 0).ilen.toNat ≤ 15 ∧
    15 < (withRegs 16 0).ilen.toNat := by decide

theorem witness_FrameeRule : (withRegs 0 0).ilen.toNat ≤ 15 ∧ (withRegs 15 0).ilen.toNat ≤ 15 ∧
    15 < (withRegs 65535 0).ilen.toNat := by decide

theorem witness_ByteArgumentCommands : (withRegs 0 0x01FF).arg.toNat % 256 = (0xFF : Byte).toNat ∧
    (withRegs 0 0).arg.toNat % 256 = (0x00 : Byte).toNat := by decide

theorem witness_DatsCommand : (withRegs 0 0xFFFF).arg.toNat = 256 * (0xFF : Byte).toNat + (0xFF : Byte).toNat ∧
    (withRegs 0 0x0009).arg.toNat = 256 * (0x00 : Byte).toNat + (0x09 : Byte).toNat := by decide

/-- A full chunk, a final chunk of one byte, and the end of the stream. -/
theorem witness_ChunkRule : midStream.cpos.toNat < midStream.ilen.toNat ∧
    ({ midStream with cpos := 53 } : State).cpos.toNat < ({ midStream with cpos := 53 } : State).ilen.toNat ∧
    ({ midStream with cpos := 54 } : State).ilen.toNat ≤ ({ midStream with cpos := 54 } : State).cpos.toNat := by decide

theorem witness_ChunkeRule : (loaded [0xAB]).cpos.toNat < (loaded [0xAB]).ilen.toNat ∧
    (loaded []).ilen.toNat ≤ (loaded []).cpos.toNat := by decide

/-- The empty payload, one byte, and the longest (R195). -/
theorem witness_chunkCount : chunkCount 0 = 0 ∧ chunkCount 1 = 1 ∧ chunkCount 15 = 1 ∧ chunkCount 16 = 2 ∧
    chunkCount 54 = 4 ∧ chunkCount 65535 = 4369 := by decide

theorem witness_OtherOperationsSafeBetweenChunks : movesCursor .cmdDatcp = false ∧ movesCursor .enc = false ∧
    movesCursor .nop = false := by decide

theorem witness_ErrorsChangeOnlyStatus : ∃ t, hostWrite 0x00000 0x41 State.reset = .next t ∧ t.err ≠ .ok :=
  ⟨_, rfl, by decide⟩

theorem witness_OperationFrame : writesOutput .crst = false ∧ movesCursor .nop = false ∧ (0x00006 : HostAddr).toNat ≠ 0x1 ∧
    (0x00005 : HostAddr).toNat < 0x6 ∧ 0x20 ≤ (0x00020 : HostAddr).toNat := by decide

theorem witness_OutputLengths : writesOutput .gpack = true ∧ writesOutput .gunpack = true ∧
    (∃ t, exec .gpack gridOn = .next t ∧ t.err = .ok) ∧ ∃ t, exec .cmdpLedon State.reset = .next t ∧ t.err = .ok :=
  ⟨rfl, rfl, ⟨_, execGpack_ok rfl (by decide +kernel), rfl⟩, _, rfl, rfl⟩

theorem witness_PlaintextIgnoresKey : readsKey .gpack = false ∧ readsKey .cmdpDats = false ∧ readsKey .cmdDats = true := by
  decide

/-- Two machines with the same first byte, one from after a later power-up and with another second byte. -/
theorem witness_OperationsReadOnlyIlenBytes : ∀ k < (loaded [0xAB]).ilen.toNat,
    readIbuf { loaded [0xAB] with ibuf := [(0, 0xAB), (1, 0xCD)], powerUps := 7 } k = readIbuf (loaded [0xAB]) k := by
  intro k hk
  have : k = 0 := by have : (loaded [0xAB]).ilen.toNat = 1 := rfl
                     omega
  subst this
  rfl

theorem witness_OnlyCommandsReadArg : readsArg .cmdLedon = false ∧
    (0x0132 : Half).toNat % 256 = (withRegs 0 0x0032).arg.toNat % 256 := by decide

/-- A read, a label, and both jumps: taken to a label, taken to the first of two, taken to none, and not taken. -/
theorem witness_HostScriptForms :
    currentItem (standingAt (.rd 0x00001)) = some (.rd 0x00001) ∧ currentItem (standingAt (.label 3)) = some (.label 3) ∧
    (let s : State := { State.reset with script := [.jz 0x00001 0x0F 3, .label 3, .label 3] }
     currentItem s = some (.jz 0x00001 0x0F 3) ∧ hostRead s 0x00001 &&& 0x0F = 0 ∧ s.script[1]? = some (HostItem.label 3) ∧
       ∀ q < 1, s.script[q]? ≠ some (HostItem.label 3)) ∧
    hostRead (standingAt (.jz 0x00001 0x20 3)) 0x00001 &&& 0x20 ≠ 0 ∧
    (let s : State := { State.reset with script := [.jnz 0x00001 0x20 3, .label 3] }
     currentItem s = some (.jnz 0x00001 0x20 3) ∧ hostRead s 0x00001 &&& 0x20 ≠ 0 ∧ s.script[1]? = some (HostItem.label 3) ∧
       ∀ q < 1, s.script[q]? ≠ some (HostItem.label 3)) ∧
    hostRead (standingAt (.jnz 0x00001 0x0F 3)) 0x00001 &&& 0x0F = 0 ∧
    ended State.reset = true ∧ ended (standingAt .halt) = true := by decide +kernel

/-- Writes at both ends of the address space, and a `jmp` to a label that stands before it. -/
theorem witness_HostScriptForms_wr_jmp :
    currentItem (standingAt (.wr 0x00000 0x57)) = some (.wr 0x00000 0x57) ∧
    currentItem (standingAt (.wr 0x1FFFF 0xA5)) = some (.wr 0x1FFFF 0xA5) ∧
    let s : State := { State.reset with script := [.label 3, .jz 0x00001 0x00 3], hostPos := 1 }
    expandLine (.jmp 3) = [.jz 0x00001 0x00 3] ∧ currentItem s = some (.jz 0x00001 0x00 3) ∧
      s.script[0]? = some (HostItem.label 3) ∧ ∀ q < 0, s.script[q]? ≠ some (HostItem.label 3) := by
  refine ⟨rfl, rfl, rfl, rfl, rfl, fun q hq => absurd hq (Nat.not_lt_zero q)⟩

theorem witness_HostScriptForms_no_label : ∀ p : Nat,
    (standingAt (.jz 0x00001 0x00 3)).script[p]? ≠ some (HostItem.label 3) ∧
    (standingAt (.jnz 0x00001 0x20 3)).script[p]? ≠ some (HostItem.label 3) := by
  intro p
  cases p <;> simp [standingAt]

/-- The last byte of IBUF, an empty `load` at its end, and the longest count ILEN holds. -/
theorem witness_PseudoExpansions : 65535 + [(0xA5 : Byte)].length ≤ 65536 ∧ 0 < [(0xA5 : Byte)].length ∧
    65536 + ([] : List Byte).length ≤ 65536 ∧ (0 : Half).toNat = ([] : List Byte).length ∧
    (65535 : Half).toNat = (List.replicate 65535 (0x00 : Byte)).length := by
  refine ⟨by decide, by decide, by decide, rfl, ?_⟩
  rw [List.length_replicate]
  rfl

/-- The empty payload and one byte. -/
theorem witness_InputLoadsPayload : ∀ bytes ∈ [[], [(0xA5 : Byte)]],
    let s : State := { State.reset with script := expandLine (.input bytes) }
    (ScriptLine.input bytes).wf = true ∧ s.script = expandLine (.input bytes) ∧ s.hostPos = 0 := by decide

theorem witness_WirePacketIsEncryptedBlock : (Instr.cmdDatcp, Instr.cmdpDatcp) ∈
    [(Instr.cmdLedon, Instr.cmdpLedon), (.cmdDatcp, .cmdpDatcp)] := by decide

/-! The operations that encrypt, under K0. -/

set_option Elab.async false in
/-- CIPH-1. -/
theorem test_enc : outcome .enc (loaded [0x00, 0x11, 0x22, 0x33, 0x44, 0x55, 0x66, 0x77, 0x88, 0x99, 0xaa, 0xbb, 0xcc,
      0xdd, 0xee, 0xff]) =
    some ([0x69, 0xc4, 0xe0, 0xd8, 0x6a, 0x7b, 0x04, 0x30, 0xd8, 0xcd, 0xb7, 0x80, 0x70, 0xb4, 0xc5, 0x5a], 16, 0x00) := by
  decide +kernel

set_option Elab.async false in
/-- CIPH-2. -/
theorem test_dec : outcome .dec (loaded [0x69, 0xc4, 0xe0, 0xd8, 0x6a, 0x7b, 0x04, 0x30, 0xd8, 0xcd, 0xb7, 0x80, 0x70,
      0xb4, 0xc5, 0x5a]) =
    some ([0x00, 0x11, 0x22, 0x33, 0x44, 0x55, 0x66, 0x77, 0x88, 0x99, 0xaa, 0xbb, 0xcc, 0xdd, 0xee, 0xff], 16, 0x00) := by
  decide +kernel

set_option Elab.async false in
/-- FRM-2. -/
theorem test_framee : outcome .framee (loaded [0xaa, 0xbb, 0xcc]) =
    some ([0xd7, 0x06, 0x8f, 0x09, 0x8e, 0xa8, 0xa0, 0x1b, 0x2b, 0x38, 0x9f, 0x13, 0xfc, 0x8f, 0x12, 0x34], 16, 0x00) := by
  decide +kernel

set_option Elab.async false in
/-- CHK-E1. -/
theorem test_chunke : outcome .chunke (loaded [0xab]) =
    some ([0xc9, 0x28, 0x0d, 0x50, 0x70, 0xd2, 0x41, 0x19, 0x03, 0x36, 0x76, 0x28, 0x84, 0x27, 0xfb, 0xd5], 16, 0x30) := by
  decide +kernel

set_option Elab.async false in
/-- CMD-2. -/
theorem test_cmd_ledoff : outcome .cmdLedoff (withRegs 0 0) =
    some ([0x58, 0x56, 0xb8, 0x04, 0xec, 0xe1, 0x02, 0xc3, 0x89, 0xb3, 0xfd, 0x19, 0xea, 0x15, 0x4c, 0x85], 16, 0x20) := by
  decide +kernel

end Sys2Proof.Tests
end

section
/-! KEY is never written: each host write keeps it, hence each step does (R5, R31, R35). -/

namespace Sys2Proof.Machine

/-- HostWrite reaches no register that holds KEY, and the operation that an OPR write performs keeps it (R31, R53). -/
theorem WriteEffect.key_eq {s t : State} (h : WriteEffect s t) : t.key = s.key := by
  cases h with
  | operation v moves outputs t hop =>
    obtain ⟨-, -, -, -, -, hkey, -⟩ := hop.frame
    exact hkey
  | ignored => rfl
  | ilen n => rfl
  | arg n => rfl
  | ibuf i hi v => exact writeIbuf_key s i v

/-- A platform event keeps KEY as a host access does (R35, R250). -/
theorem StepEffect.key_eq {s t : State} (h : StepEffect s t) : t.key = s.key := by
  cases h with
  | idle => rfl
  | hostOnly pos trace => rfl
  | write t hw => exact hw.key_eq.trans (advanceHost_key s)
  | reset => exact (advanceHost_key _).trans (resetBlock_key s)
  | power => exact (advanceHost_key _).trans (powerCycleBlock_key s)

/-- Settles O9: every effect that a step can have keeps KEY. -/
theorem stepNeverChangesKey : Obligations.StepNeverChangesKey :=
  fun _ _ h => (effect_of_step h).key_eq

end Sys2Proof.Machine
end

section
/-! What reads and accesses give, stated once: the register rules that the statements of 10_state.md rest on. -/

namespace Sys2Proof.Machine

/-- A read of OPR's address (R53). -/
@[simp] theorem hostRead_opr (s : State) : hostRead s 0x00000 = s.opr := rfl

/-- A read of STATUS's address (R53). -/
@[simp] theorem hostRead_status (s : State) : hostRead s 0x00001 = statusByte s := rfl

/-- OBUF as the host reads it is OBUF's byte (R27). -/
theorem readObuf_eq_getElem (s : State) (j : Nat) (hj : j < 16) : readObuf s j = s.obuf[j] := by
  simp [readObuf, List.getD_eq_getElem?_getD, hj]

/-- A write to OPR whose byte decodes performs the operation after OPR is set (R23, R71). -/
theorem performOpcode_of_decode {v : Byte} {i : Instr} {rest : List Byte} (h : decode [v] = .ok (i, rest)) (s : State) :
    performOpcode v s = exec i { s with opr := v } := by
  simp only [performOpcode, h]

/-- A write to OPR whose byte does not decode performs the reserved-opcode rule after OPR is set (R23, R211). -/
theorem performOpcode_of_reserved {v : Byte} {r : Reject} (h : decode [v] = .error r) (s : State) :
    performOpcode v s = .next (raiseError .illegal { s with opr := v }) := by
  simp only [performOpcode, h, execReserved]

/-- The register writes leave OPR alone: its own write is `performOpcode` (R53). -/
@[simp] theorem writeRegister_opr (a : Nat) (v : Byte) (s : State) : (writeRegister a v s).opr = s.opr := by
  unfold writeRegister
  split <;> rfl

/-- A host write to any address but OPR's leaves OPR (R23). -/
theorem hostWrite_opr_of_ne {a : HostAddr} {v : Byte} {s t : State} (ha : a.toNat ≠ 0)
    (h : hostWrite a v s = .next t) : t.opr = s.opr := by
  rw [hostWrite, if_neg ha] at h
  split at h
  · cases h; exact writeRegister_opr _ v s
  · cases h; exact writeIbuf_opr s _ v

/-- Outside STATUS and the addresses of OLEN, the cursor and OBUF, a read depends on OPR, ILEN, ARG and IBUF alone
(R53). -/
theorem hostRead_congr {s t : State} {a : HostAddr} (hopr : t.opr = s.opr) (hilen : t.ilen = s.ilen)
    (harg : t.arg = s.arg) (hibuf : ∀ k, readIbuf t k = readIbuf s k) (hstatus : a.toNat ≠ 0x1)
    (ha : a.toNat < 0x6 ∨ 0x20 ≤ a.toNat) : hostRead t a = hostRead s a := by
  simp only [hostRead, hibuf]
  rcases ha with hlow | hhigh
  · rw [if_pos (by omega), if_pos (by omega)]
    generalize a.toNat = k at hstatus hlow
    interval_cases k
    · exact hopr
    · exact absurd rfl hstatus
    all_goals simp only [readRegister, hilen, harg]
  · simp only [show ¬ a.toNat < 0x10 by omega, show ¬ a.toNat < 0x20 by omega, if_false]

/-- ERR is never above 6 (R220). -/
theorem ErrCode.code_le (e : ErrCode) : e.code.toNat ≤ 6 := by cases e <;> decide

/-! The fields of the STATUS byte (R24). -/

theorem statusByte_err (s : State) : (statusByte s).extractLsb' 0 4 = s.err.code :=
  BitVec.extractLsb'_append_eq_right

theorem statusByte_last (s : State) : (statusByte s).getLsbD 4 = s.last := by
  simp only [statusByte, BitVec.getLsbD_append]
  simp

theorem statusByte_end (s : State) : (statusByte s).getLsbD 5 = statusEnd s := by
  simp only [statusByte, BitVec.getLsbD_append]
  simp

theorem statusByte_zeros (s : State) : (statusByte s).getLsbD 6 = false ∧ (statusByte s).getLsbD 7 = false := by
  simp only [statusByte, BitVec.getLsbD_append]
  simp

theorem statusEnd_iff (s : State) : statusEnd s = true ↔ s.ilen.toNat ≤ s.cpos.toNat := decide_eq_true_iff

/-- Settles O16, from the fields of the STATUS byte. -/
theorem statusByteFields : Obligations.StatusByteFields := by
  intro s
  rw [hostRead_status, statusByte_end, statusEnd_iff]
  exact ⟨statusByte_err s, s.err.code_le, statusByte_last s, Iff.rfl, statusByte_zeros s⟩

end Sys2Proof.Machine
end

section
/-! Reset (R35): what the registers hold after it. -/

namespace Sys2Proof.Machine

/-- Resetting a machine just powered up changes nothing: `State.reset` holds the values of R35. -/
theorem resetBlock_reset : resetBlock State.reset = State.reset := rfl

/-- A state of the reset's registers is the reset of some state. -/
theorem exists_eq_resetBlock {s : State} (h : s = State.reset ∨ ∃ u, s = resetBlock u) : ∃ u, s = resetBlock u := by
  rcases h with rfl | hu
  · exact ⟨State.reset, resetBlock_reset.symm⟩
  · exact hu

/-- OBUF reads 0x00 after reset (R35). -/
theorem readObuf_resetBlock (u : State) (j : Nat) (hj : j < 16) : readObuf (resetBlock u) j = 0x00 := by
  simp [readObuf_eq_getElem _ j hj]

/-- END reads 1 after reset, "computed from CPOS = 0 and ILEN = 0" (R35). -/
theorem statusEnd_resetBlock (u : State) : statusEnd (resetBlock u) = true :=
  (statusEnd_iff _).mpr (Nat.le_refl 0)

/-- Settles O4, from the values that a reset writes. -/
theorem resetRegisterValues : Obligations.ResetRegisterValues := by
  refine ⟨fun s hs => ?_, fun u => ⟨resetBlock_key u, readIbuf_congr (resetBlock_ibuf u) (resetBlock_powerUps u)⟩⟩
  obtain ⟨u, rfl⟩ := exists_eq_resetBlock hs
  exact ⟨rfl, rfl, rfl, statusEnd_resetBlock u, rfl, rfl, rfl, readObuf_resetBlock u, rfl, rfl⟩

end Sys2Proof.Machine
end

section
/-! What each effect of an operation does to the registers, and the invariant. -/

namespace Sys2Proof.Machine

open Sys2Proof.Safety

/-- Writing at most 16 bytes to OBUF with their count to OLEN leaves OBUF padded (R9, R27). -/
theorem obufPadded_of_bytes {t : State} {bytes : List Byte} (hobuf : t.obuf = blockOfBytes bytes)
    (holen : t.olen = BitVec.ofNat 8 bytes.length) (hlen : bytes.length ≤ 16) : obufPadded t := by
  intro k hk
  rw [holen, BitVec.toNat_ofNat, Nat.mod_eq_of_lt (by omega)] at hk
  rw [hobuf, Fin.getElem_fin, blockOfBytes_getElem _ _ k.isLt, List.getD_eq_default _ _ hk]

/-- A padded OBUF reads 0x00 from OLEN on (R27). -/
theorem readObuf_of_obufPadded {t : State} (h : obufPadded t) (j : Nat) (hj : j < 16) (hlen : t.olen.toNat ≤ j) :
    readObuf t j = 0x00 := by
  rw [readObuf_eq_getElem t j hj]
  exact h ⟨j, hj⟩ hlen

/-- An output length of the three of R27 is legal. -/
theorem olenLegal_of_bytes {t : State} {bytes : List Byte} (holen : t.olen = BitVec.ofNat 8 bytes.length)
    (hlen : bytes.length = 9 ∨ bytes.length = 12 ∨ bytes.length = 16) : olenLegal t := by
  right
  rcases hlen with h | h | h <;> simp [holen, h]

/-- CCNT "never wraps": before a chunk it is at most CPOS, which is below ILEN (R29, R30). -/
theorem ccnt_emitChunk {s : State} (bytes : List Byte) (hc : s.cpos.toNat < s.ilen.toNat) (h : cursorLegal s) :
    (emitChunk bytes s).ccnt.toNat = s.ccnt.toNat + 1 := by
  obtain ⟨hlow, -⟩ := h
  have hilen := s.ilen.isLt
  exact BitVec.toNat_add_of_lt (show s.ccnt.toNat + 1 < 2 ^ 16 by omega)

/-- An emitted chunk advances CPOS by 1 to 15 and CCNT by 1 (R192). -/
theorem cursorLegal_emitChunk {s : State} (bytes : List Byte) (hc : s.cpos.toNat < s.ilen.toNat)
    (h : cursorLegal s) : cursorLegal (emitChunk bytes s) := by
  have hpos : (emitChunk bytes s).cpos.toNat = s.cpos.toNat + chunkLen s := cpos_add_chunkLen s hc
  have hcnt := ccnt_emitChunk bytes hc h
  have hone := chunkLen_pos s hc
  have hmax := chunkLen_le s
  obtain ⟨hlow, hhigh⟩ := h
  constructor <;> omega

/-- LAST after a chunk: the block is whole and the chunk is counted (R24). -/
theorem lastLegal_emitChunk {s : State} {bytes : List Byte} (hlen : bytes.length = 16)
    (hc : s.cpos.toNat < s.ilen.toNat) (h : cursorLegal s) : lastLegal (emitChunk bytes s) :=
  fun _ => ⟨rfl, by simp [hlen], (Nat.le_add_left 1 _).trans_eq (ccnt_emitChunk bytes hc h).symm⟩

/-- Where LAST is 0 nothing is to be shown of it. -/
theorem lastLegal_of_last_eq_false {t : State} (h : t.last = false) : lastLegal t :=
  fun hl => absurd (h.symm.trans hl) Bool.false_ne_true

/-- A state whose registers have their reset values meets the invariant, whatever canonical list IBUF is. -/
theorem inv_resetBlock {u : State} (h : Memory.wf u.ibuf = true) : Inv (resetBlock u) where
  ibuf := h
  olen := .inl rfl
  obuf := fun k _ => (readObuf_eq_getElem _ k.val k.isLt).symm.trans (readObuf_resetBlock u k.val k.isLt)
  cursor := ⟨Nat.le_refl 0, Nat.le_refl 0⟩
  last := lastLegal_of_last_eq_false rfl

/-- Settles O7: the reset state is a reset of itself. -/
theorem resetMeetsInvariant : Obligations.ResetMeetsInvariant :=
  inv_resetBlock (u := State.reset) Memory.wf_reset

/-- Every effect of an operation keeps the invariant. -/
theorem OpEffect.inv {moves outputs : Bool} {s t : State} (h : OpEffect moves outputs s t) (hs : Inv s) : Inv t := by
  cases h with
  | status => exact ⟨hs.ibuf, hs.olen, hs.obuf, hs.cursor, lastLegal_of_last_eq_false rfl⟩
  | error e => exact ⟨hs.ibuf, hs.olen, hs.obuf, hs.cursor, lastLegal_of_last_eq_false rfl⟩
  | output bytes hlen =>
    exact ⟨hs.ibuf, olenLegal_of_bytes rfl hlen, obufPadded_of_bytes rfl rfl (by omega), hs.cursor,
      lastLegal_of_last_eq_false rfl⟩
  | restart =>
    exact ⟨hs.ibuf, hs.olen, hs.obuf, ⟨Nat.le_refl 0, Nat.le_refl 0⟩, lastLegal_of_last_eq_false rfl⟩
  | chunk bytes hlen hc =>
    exact ⟨hs.ibuf, olenLegal_of_bytes rfl (.inr (.inr hlen)), obufPadded_of_bytes rfl rfl hlen.le,
      cursorLegal_emitChunk bytes hc hs.cursor, lastLegal_emitChunk hlen hc hs.cursor⟩

/-- OPR, ILEN, ARG and the host's side are no part of the invariant. -/
theorem inv_of_other_fields {s : State} (hs : Inv s) (opr : Byte) (ilen arg : Half) (pos : Nat) (trace : List Byte) :
    Inv { s with opr := opr, ilen := ilen, arg := arg, hostPos := pos, trace := trace } :=
  ⟨hs.ibuf, hs.olen, hs.obuf, hs.cursor, hs.last⟩

theorem inv_advanceHost {s : State} (hs : Inv s) : Inv (advanceHost s) := inv_of_other_fields hs ..

/-- Every effect of a host write keeps the invariant; a write to IBUF keeps its canonical form. -/
theorem WriteEffect.inv {s t : State} (h : WriteEffect s t) (hs : Inv s) : Inv t := by
  cases h with
  | operation v moves outputs t hop => exact hop.inv (inv_of_other_fields hs ..)
  | ignored => exact hs
  | ilen n => exact inv_of_other_fields hs ..
  | arg n => exact inv_of_other_fields hs ..
  | ibuf i hi v => exact ⟨Memory.wf_insert _ v hi hs.ibuf, hs.olen, hs.obuf, hs.cursor, hs.last⟩

/-- A power cycle is a reset that leaves IBUF with no byte written (R251). -/
theorem inv_powerCycleBlock (s : State) : Inv (powerCycleBlock s) :=
  inv_resetBlock (u := { s with ibuf := [], powerUps := s.powerUps + 1 }) rfl

/-- Every effect of a step keeps the invariant. -/
theorem StepEffect.inv {s t : State} (h : StepEffect s t) (hs : Inv s) : Inv t := by
  cases h with
  | idle => exact hs
  | hostOnly pos trace => exact inv_of_other_fields hs ..
  | write t hw => exact hw.inv (inv_advanceHost hs)
  | reset => exact inv_advanceHost (inv_resetBlock hs.ibuf)
  | power => exact inv_advanceHost (inv_powerCycleBlock s)

/-- Settles O8: every effect that a step can have keeps the invariant. -/
theorem stepKeepsInvariant : Obligations.StepKeepsInvariant :=
  fun _ _ hs h => (effect_of_step h).inv hs

end Sys2Proof.Machine
end

section
/-! What an operation does to the registers: its frame, LAST, and its output length. -/

namespace Sys2Proof.Machine

open Sys2Proof.Safety

/-- An operation that puts nothing out leaves OBUF and OLEN (R22, R66). -/
theorem OpEffect.output_eq {moves outputs : Bool} {s t : State} (h : OpEffect moves outputs s t)
    (ho : outputs = false) : t.obuf = s.obuf ∧ t.olen = s.olen := by
  cases h with
  | status | error | restart => exact ⟨rfl, rfl⟩
  | output _ _ hyes | chunk _ _ _ _ hyes => exact absurd (ho.symm.trans hyes) Bool.false_ne_true

/-- An operation outside the chunk group leaves the cursor (R66). -/
theorem OpEffect.cursor_eq {moves outputs : Bool} {s t : State} (h : OpEffect moves outputs s t)
    (hm : moves = false) : t.cpos = s.cpos ∧ t.ccnt = s.ccnt := by
  cases h with
  | status | error | output => exact ⟨rfl, rfl⟩
  | restart hyes | chunk _ _ _ hyes => exact absurd (hm.symm.trans hyes) Bool.false_ne_true

/-- Only an emitted chunk can set LAST (R24). -/
theorem OpEffect.last_eq_false {moves outputs : Bool} {s t : State} (h : OpEffect moves outputs s t)
    (hno : ¬ (moves = true ∧ outputs = true)) : t.last = false := by
  cases h with
  | status | error | output | restart => rfl
  | chunk _ _ _ hm ho => exact absurd ⟨hm, ho⟩ hno

/-- An operation that puts out and succeeds leaves OBUF padded (R27). -/
theorem OpEffect.obufPadded {moves outputs : Bool} {s t : State} (h : OpEffect moves outputs s t)
    (ho : outputs = true) (hok : t.err = .ok) : obufPadded t := by
  cases h with
  | status hno | restart _ hno => exact absurd (hno.symm.trans ho) Bool.false_ne_true
  | error e he => exact absurd hok he
  | output bytes hlen => exact obufPadded_of_bytes rfl rfl (by omega)
  | chunk bytes hlen => exact obufPadded_of_bytes rfl rfl hlen.le

/-- CHUNK and CHUNKE are the operations that both move the cursor and put out. -/
theorem chunk_or_chunke_of_moves_of_outputs {i : Instr} (h : movesCursor i = true ∧ writesOutput i = true) :
    i = .chunk ∨ i = .chunke := by
  revert h
  cases i <;> decide

/-- No operation writes OPR (R23). -/
theorem exec_opr {i : Instr} {s t : State} (h : exec i s = .next t) : t.opr = s.opr := by
  obtain ⟨hopr, -⟩ := (effect_of_exec h).frame
  exact hopr

/-- Settles O14: the OPR write performs after OPR is set, and no other write and no operation sets it. -/
theorem oprHoldsLastOpcode : Obligations.OprHoldsLastOpcode := by
  refine ⟨fun v s => ?_, fun s hs => ?_, fun _ _ _ => exec_opr,
    fun _ _ _ _ => hostWrite_opr_of_ne⟩
  · cases hdec : decode [v] with
    | ok decoded =>
      obtain ⟨i, rest⟩ := decoded
      obtain ⟨t, ht, -⟩ := exec_effect i { s with opr := v }
      exact ⟨t, (performOpcode_of_decode hdec s).trans ht, exec_opr ht, .inl ⟨i, rest, rfl, ht⟩⟩
    | error r => exact ⟨_, performOpcode_of_reserved hdec s, rfl, .inr ⟨⟨r, rfl⟩, rfl⟩⟩
  · obtain ⟨u, rfl⟩ := exists_eq_resetBlock hs
    rfl

/-- Settles O42, from the frame of `OpEffect`. -/
theorem operationFrame : Obligations.OperationFrame := by
  intro i s
  obtain ⟨t, ht, heff⟩ := exec_effect i s
  obtain ⟨hopr, hilen, harg, hibuf, hpower, hkey, hscript, hpos, htrace⟩ := heff.frame
  have hread : ∀ k, readIbuf t k = readIbuf s k := readIbuf_congr hibuf hpower
  exact ⟨t, ht, hopr, hilen, harg, hkey, hread, heff.output_eq, heff.cursor_eq, hscript, hpos, htrace,
    fun a => hostRead_congr hopr hilen harg hread⟩

/-- The chunk that is emitted is the final one exactly when at most 15 bytes are left (R192). -/
theorem emitChunk_last_iff (bytes : List Byte) {s : State} (hc : s.cpos.toNat < s.ilen.toNat) :
    (emitChunk bytes s).last = true ↔ s.ilen.toNat ≤ s.cpos.toNat + 15 := by
  rw [emitChunk_last, decide_eq_true_iff, ← BitVec.toNat_inj, cpos_add_chunkLen s hc, chunkLen, Config.maxPayload]
  omega

/-- Settles O17: CHUNK and CHUNKE by whether a chunk is left, every other operation by its effect. -/
theorem lastMarksFinalChunk : Obligations.LastMarksFinalChunk := by
  intro i s
  by_cases hi : i = .chunk ∨ i = .chunke
  · rcases Nat.lt_or_ge s.cpos.toNat s.ilen.toNat with hc | hc
    · have hlast (bytes : List Byte) : (emitChunk bytes s).last = true ↔
          (i = .chunk ∨ i = .chunke) ∧ s.cpos.toNat < s.ilen.toNat ∧ s.ilen.toNat ≤ s.cpos.toNat + 15 := by
        simp only [emitChunk_last_iff bytes hc, hi, hc, true_and]
      rcases hi with rfl | rfl
      · exact ⟨_, execChunk_ok hc, hlast _⟩
      · exact ⟨_, execChunke_ok hc, hlast _⟩
    · have hlast : (raiseError .exhausted s).last = true ↔
          (i = .chunk ∨ i = .chunke) ∧ s.cpos.toNat < s.ilen.toNat ∧ s.ilen.toNat ≤ s.cpos.toNat + 15 := by
        simp [hc.not_gt]
      rcases hi with rfl | rfl
      · exact ⟨_, execChunk_error hc, hlast⟩
      · exact ⟨_, execChunke_error hc, hlast⟩
  · obtain ⟨t, ht, heff⟩ := exec_effect i s
    have hlast : t.last = false := heff.last_eq_false (mt chunk_or_chunke_of_moves_of_outputs hi)
    exact ⟨t, ht, by simp [hlast, hi]⟩

/-- The output length of an operation that succeeds: 9 for GPACK, 12 for GUNPACK, a block for every other (R27). -/
def outputLength (i : Instr) : Nat := if i = .gpack then 9 else if i = .gunpack then 12 else 16

/-- OLEN counts the bytes put out. -/
theorem olen_toNat_of_bytes {t : State} {bytes : List Byte} {n : Nat} (holen : t.olen = BitVec.ofNat 8 bytes.length)
    (hlen : bytes.length = n) (hn : n < 256) : t.olen.toNat = n := by
  rw [holen, BitVec.toNat_ofNat, hlen, Nat.mod_eq_of_lt hn]

/-- OLEN after every operation that puts out and succeeds. -/
theorem exec_olen (i : Instr) (s : State) (ho : writesOutput i = true) :
    ∃ t, exec i s = .next t ∧ (t.err = .ok → t.olen.toNat = outputLength i) := by
  have hblock {t : State} {bytes : List Byte} (holen : t.olen = BitVec.ofNat 8 bytes.length)
      (hlen : bytes.length = 16) : t.olen.toNat = 16 := olen_toNat_of_bytes holen hlen (by decide)
  cases i with
  | nop | crst => exact absurd ho (by decide)
  | enc =>
    by_cases h : s.ilen = 16
    · exact ⟨_, execEnc_ok h, fun _ => hblock rfl (encryptBytes_length ..)⟩
    · exact ⟨_, execEnc_error h, nofun⟩
  | dec =>
    by_cases h : s.ilen = 16
    · exact ⟨_, execDec_ok h, fun _ => hblock rfl (decryptBytes_length ..)⟩
    · exact ⟨_, execDec_error h, nofun⟩
  | gpack =>
    by_cases h : s.ilen = 12
    · by_cases hp : (ibufSlice s 0 12).all padClear = true
      · exact ⟨_, execGpack_ok h hp, fun _ => olen_toNat_of_bytes rfl (packGlyph_length _) (by decide)⟩
      · exact ⟨_, execGpack_pad h hp, nofun⟩
    · exact ⟨_, execGpack_error h, nofun⟩
  | gunpack =>
    by_cases h : s.ilen = 9
    · exact ⟨_, execGunpack_ok h, fun _ => olen_toNat_of_bytes rfl (unpackGlyph_length _) (by decide)⟩
    · exact ⟨_, execGunpack_error h, nofun⟩
  | frame =>
    by_cases h : s.ilen.toNat ≤ 15
    · exact ⟨_, execFrame_ok h, fun _ => hblock rfl (frameBytes_length _ ((ibufSlice_length ..).trans_le h))⟩
    · exact ⟨_, execFrame_error h, nofun⟩
  | framee =>
    by_cases h : s.ilen.toNat ≤ 15
    · exact ⟨_, execFramee_ok h, fun _ => hblock rfl (encryptBytes_length ..)⟩
    · exact ⟨_, execFramee_error h, nofun⟩
  | chunk =>
    rcases Nat.lt_or_ge s.cpos.toNat s.ilen.toNat with hc | hc
    · exact ⟨_, execChunk_ok hc,
        fun _ => hblock rfl (frameBytes_length _ ((chunkData_length s).trans_le (chunkLen_le s)))⟩
    · exact ⟨_, execChunk_error hc, nofun⟩
  | chunke =>
    rcases Nat.lt_or_ge s.cpos.toNat s.ilen.toNat with hc | hc
    · exact ⟨_, execChunke_ok hc, fun _ => hblock rfl (encryptBytes_length ..)⟩
    · exact ⟨_, execChunke_error hc, nofun⟩
  | cmdLedon | cmdLedoff | cmdMode | cmdSpeed | cmdLight | cmdDats | cmdDatcp =>
    exact ⟨_, rfl, fun _ => hblock rfl (encryptBytes_length ..)⟩
  | cmdpLedon | cmdpLedoff | cmdpMode | cmdpSpeed | cmdpLight | cmdpDats | cmdpDatcp =>
    exact ⟨_, rfl, fun _ => hblock rfl (commandFrame_length _ s)⟩

/-- Settles O43: the length by the operation, the zeros by its effect. -/
theorem outputLengths : Obligations.OutputLengths := by
  intro i s ho
  obtain ⟨t, ht, holen⟩ := exec_olen i s ho
  have hpad (hok : t.err = .ok) : Safety.obufPadded t := (effect_of_exec ht).obufPadded ho hok
  exact ⟨t, ht, fun hok => ⟨holen hok, fun j hj hle => readObuf_of_obufPadded (hpad hok) j hj hle⟩⟩

end Sys2Proof.Machine
end

section
/-! Another IBUF: what an operation reads of it. -/

namespace Sys2Proof.Machine

/-- The state with other contents of IBUF, written (`m`) or drawn at power-up `n` (R251). -/
def State.withIbuf (s : State) (m : List Host.Cell) (n : Nat) : State := { s with ibuf := m, powerUps := n }

/-- The other contents agree on the first ILEN bytes. -/
def agreesBelowIlen (s : State) (m : List Host.Cell) (n : Nat) : Prop :=
  ∀ k < s.ilen.toNat, readIbuf (s.withIbuf m n) k = readIbuf s k

section
variable {s : State} {m : List Host.Cell} {n : Nat}

/-- A slice that ends by ILEN reads the same bytes (R67). -/
theorem ibufSlice_withIbuf (h : agreesBelowIlen s m n) {start len : Nat} (hle : start + len ≤ s.ilen.toNat) :
    ibufSlice (s.withIbuf m n) start len = ibufSlice s start len :=
  ibufSlice_eq_of_reads start len fun k hk => h (start + k) (by omega)

theorem inputBytes_withIbuf (h : agreesBelowIlen s m n) : inputBytes (s.withIbuf m n) = inputBytes s :=
  ibufSlice_withIbuf h (Nat.zero_add _).le

/-- The next chunk ends by ILEN (R192). -/
theorem chunkData_withIbuf (h : agreesBelowIlen s m n) (hc : s.cpos.toNat < s.ilen.toNat) :
    chunkData (s.withIbuf m n) = chunkData s :=
  ibufSlice_withIbuf h (chunkLen_fits s hc)

/-- Every operation does the same on IBUFs that agree on the first ILEN bytes: its guards read no byte from ILEN on,
and neither does what it puts out. -/
theorem exec_withIbuf (i : Instr) (h : agreesBelowIlen s m n) :
    ∃ t, exec i s = .next t ∧ exec i (s.withIbuf m n) = .next (t.withIbuf m n) := by
  have hslice {len : Nat} (hl : s.ilen = BitVec.ofNat 16 len) (hlt : len < 2 ^ 16) :
      ibufSlice (s.withIbuf m n) 0 len = ibufSlice s 0 len :=
    ibufSlice_withIbuf h (by rw [hl, BitVec.toNat_ofNat]; omega)
  cases i with
  | nop | crst => exact ⟨_, rfl, rfl⟩
  | enc =>
    by_cases hl : s.ilen = 16
    · exact ⟨_, execEnc_ok hl, hslice hl (by decide) ▸ execEnc_ok (s := s.withIbuf m n) hl⟩
    · exact ⟨_, execEnc_error hl, execEnc_error hl⟩
  | dec =>
    by_cases hl : s.ilen = 16
    · exact ⟨_, execDec_ok hl, hslice hl (by decide) ▸ execDec_ok (s := s.withIbuf m n) hl⟩
    · exact ⟨_, execDec_error hl, execDec_error hl⟩
  | gpack =>
    by_cases hl : s.ilen = 12
    · by_cases hp : (ibufSlice s 0 12).all padClear = true
      · refine ⟨_, execGpack_ok hl hp, ?_⟩
        rw [← hslice hl (by decide)] at hp ⊢
        exact execGpack_ok hl hp
      · refine ⟨_, execGpack_pad hl hp, ?_⟩
        rw [← hslice hl (by decide)] at hp
        exact execGpack_pad hl hp
    · exact ⟨_, execGpack_error hl, execGpack_error hl⟩
  | gunpack =>
    by_cases hl : s.ilen = 9
    · exact ⟨_, execGunpack_ok hl, hslice hl (by decide) ▸ execGunpack_ok (s := s.withIbuf m n) hl⟩
    · exact ⟨_, execGunpack_error hl, execGunpack_error hl⟩
  | frame =>
    by_cases hl : s.ilen.toNat ≤ 15
    · exact ⟨_, execFrame_ok hl, inputBytes_withIbuf h ▸ execFrame_ok (s := s.withIbuf m n) hl⟩
    · exact ⟨_, execFrame_error hl, execFrame_error hl⟩
  | framee =>
    by_cases hl : s.ilen.toNat ≤ 15
    · exact ⟨_, execFramee_ok hl, inputBytes_withIbuf h ▸ execFramee_ok (s := s.withIbuf m n) hl⟩
    · exact ⟨_, execFramee_error hl, execFramee_error hl⟩
  | chunk =>
    rcases Nat.lt_or_ge s.cpos.toNat s.ilen.toNat with hc | hc
    · exact ⟨_, execChunk_ok hc, chunkData_withIbuf h hc ▸ execChunk_ok (s := s.withIbuf m n) hc⟩
    · exact ⟨_, execChunk_error hc, execChunk_error hc⟩
  | chunke =>
    rcases Nat.lt_or_ge s.cpos.toNat s.ilen.toNat with hc | hc
    · exact ⟨_, execChunke_ok hc, chunkData_withIbuf h hc ▸ execChunke_ok (s := s.withIbuf m n) hc⟩
    · exact ⟨_, execChunke_error hc, execChunke_error hc⟩
  | cmdLedon | cmdLedoff | cmdMode | cmdSpeed | cmdLight | cmdDats | cmdDatcp => exact ⟨_, rfl, rfl⟩
  | cmdpLedon | cmdpLedoff | cmdpMode | cmdpSpeed | cmdpLight | cmdpDats | cmdpDatcp => exact ⟨_, rfl, rfl⟩

end

/-- Settles O45, for every other contents of IBUF by name. -/
theorem operationsReadOnlyIlenBytes : Obligations.OperationsReadOnlyIlenBytes :=
  fun i _ _ _ h => exec_withIbuf i h

end Sys2Proof.Machine
end

section
/-! The host address map (R53, R55): what a read and a write do in each of its ranges, and what a read sees of each
write. -/

namespace Sys2Proof.Machine

section
variable {s t : State} {a b : HostAddr} {v : Byte}

/-! Reads, range by range. -/

/-- The reserved addresses after the registers read 0x00 (R53). -/
theorem readRegister_of_reserved (k : Nat) (hk : 0xB ≤ k) : readRegister s k = 0x00 := by
  unfold readRegister
  split
  case h_12 => rfl
  all_goals omega

theorem hostRead_register (ha : a.toNat < 0x10) : hostRead s a = readRegister s a.toNat := if_pos ha

theorem hostRead_obuf (hlow : 0x10 ≤ a.toNat) (hhigh : a.toNat ≤ 0x1F) :
    hostRead s a = readObuf s (a.toNat - 0x10) := by
  rw [hostRead, if_neg (by omega), if_pos (by omega)]

theorem hostRead_reserved (hlow : 0x20 ≤ a.toNat) (hhigh : a.toNat ≤ 0xFFFF) : hostRead s a = 0x00 := by
  rw [hostRead, if_neg (by omega), if_neg (by omega), if_pos (by omega)]

theorem hostRead_ibuf (ha : 0x10000 ≤ a.toNat) : hostRead s a = readIbuf s (a.toNat - 0x10000) := by
  rw [hostRead, if_neg (by omega), if_neg (by omega), if_neg (by omega)]

/-! Writes, range by range. -/

/-- A write to a read-only or reserved address "has no effect" (R55). -/
theorem hostWrite_ignored (ha : a.toNat = 1 ∨ 6 ≤ a.toNat ∧ a.toNat < 0x10000) : hostWrite a v s = .next s := by
  rw [hostWrite, if_neg (by omega), if_pos (by omega)]
  unfold writeRegister
  split
  case h_5 => rfl
  all_goals omega

theorem hostWrite_ibuf (ha : 0x10000 ≤ a.toNat) : hostWrite a v s = .next (writeIbuf s (a.toNat - 0x10000) v) := by
  rw [hostWrite, if_neg (by omega), if_neg (by omega)]

/-! Reads after a write. -/

/-- Two states with the same OBUF that agree on the register and on the IBUF byte of an address read alike there. -/
theorem hostRead_eq_of_parts (hreg : b.toNat < 0x10 → readRegister t b.toNat = readRegister s b.toNat)
    (hobuf : t.obuf = s.obuf)
    (hibuf : 0x10000 ≤ b.toNat → readIbuf t (b.toNat - 0x10000) = readIbuf s (b.toNat - 0x10000)) :
    hostRead t b = hostRead s b := by
  unfold hostRead
  split
  · next h => exact hreg h
  · split
    · rw [readObuf, hobuf, readObuf]
    · split
      · rfl
      · exact hibuf (by omega)

/-- ILEN reaches a read other than STATUS only through its own two bytes (R53). -/
theorem hostRead_with_ilen {n : Half} (hstatus : b.toNat ≠ 1) (hhi : b.toNat = 2 → hiByte n = hiByte s.ilen)
    (hlo : b.toNat = 3 → loByte n = loByte s.ilen) : hostRead { s with ilen := n } b = hostRead s b := by
  refine hostRead_eq_of_parts (fun hlt => ?_) rfl fun _ => rfl
  generalize b.toNat = k at *
  interval_cases k
  · rfl
  · exact absurd rfl hstatus
  · exact hhi rfl
  · exact hlo rfl
  all_goals rfl

/-- ARG reaches a read only through its own two bytes (R53). -/
theorem hostRead_with_arg {n : Half} (hhi : b.toNat = 4 → hiByte n = hiByte s.arg)
    (hlo : b.toNat = 5 → loByte n = loByte s.arg) : hostRead { s with arg := n } b = hostRead s b := by
  refine hostRead_eq_of_parts (fun hlt => ?_) rfl fun _ => rfl
  generalize b.toNat = k at *
  interval_cases k
  iterate 4 · rfl
  · exact hhi rfl
  · exact hlo rfl
  all_goals rfl

/-- A byte written to IBUF is seen at its own address only (R53, R60). -/
theorem hostRead_writeIbuf_of_ne (ha : 0x10000 ≤ a.toNat) (hne : b ≠ a) :
    hostRead (writeIbuf s (a.toNat - 0x10000) v) b = hostRead s b := by
  refine hostRead_eq_of_parts (fun _ => rfl) rfl fun hb => readIbuf_writeIbuf_other _ _ _ _ ?_
  have hne' : b.toNat ≠ a.toNat := BitVec.toNat_ne_iff_ne.mpr hne
  omega

/-- The addresses that take a write of one byte of ILEN or ARG (R53). -/
theorem ilen_or_arg_address (h : 2 ≤ a.toNat ∧ a.toNat ≤ 5) :
    a = 0x00002 ∨ a = 0x00003 ∨ a = 0x00004 ∨ a = 0x00005 := by
  bv_omega

end

/-- Settles O12, range by range. -/
theorem addressMap : Obligations.AddressMap := by
  refine ⟨fun s => ⟨rfl, rfl, rfl, rfl, rfl, rfl, rfl, rfl, rfl, rfl, rfl, fun a hlow hhigh => ?_,
      fun _ => hostRead_obuf, fun _ => hostRead_reserved, fun _ => hostRead_ibuf⟩,
    fun s v => ⟨rfl, rfl, rfl, rfl, rfl, rfl, fun a hlow hhigh => ?_, fun _ => hostWrite_ibuf⟩⟩
  · exact (hostRead_register (by omega)).trans (readRegister_of_reserved _ hlow)
  · exact hostWrite_ignored (by omega)

/-- Settles O13: a write is ignored, or replaces one byte of ILEN or ARG, or one byte of IBUF. -/
theorem readAfterWrite : Obligations.ReadAfterWrite := by
  intro s a v ha
  have hrange : (a.toNat = 1 ∨ 6 ≤ a.toNat ∧ a.toNat < 0x10000) ∨ (2 ≤ a.toNat ∧ a.toNat ≤ 5) ∨
      0x10000 ≤ a.toNat := by omega
  rcases hrange with hignored | hreg | hibuf
  · exact ⟨s, hostWrite_ignored hignored, by omega, fun _ => rfl, fun _ _ _ => rfl, fun _ _ => rfl⟩
  · have hnot : ¬ (a.toNat = 1 ∨ 6 ≤ a.toNat ∧ a.toNat < 0x10000) := by omega
    have hother {b : HostAddr} (hne : b ≠ a) : b.toNat ≠ a.toNat := BitVec.toNat_ne_iff_ne.mpr hne
    rcases ilen_or_arg_address hreg with rfl | rfl | rfl | rfl
    · exact ⟨_, rfl, fun _ => hiByte_setHiByte .., (absurd · hnot),
        fun b hne hst => hostRead_with_ilen hst (absurd · (hother hne)) fun _ => loByte_setHiByte ..,
        fun h => absurd rfl h⟩
    · exact ⟨_, rfl, fun _ => loByte_setLoByte .., (absurd · hnot),
        fun b hne hst => hostRead_with_ilen hst (fun _ => hiByte_setLoByte ..) (absurd · (hother hne)),
        fun _ h => absurd rfl h⟩
    · exact ⟨_, rfl, fun _ => hiByte_setHiByte .., (absurd · hnot),
        fun b hne _ => hostRead_with_arg (absurd · (hother hne)) fun _ => loByte_setHiByte .., fun _ _ => rfl⟩
    · exact ⟨_, rfl, fun _ => loByte_setLoByte .., (absurd · hnot),
        fun b hne _ => hostRead_with_arg (fun _ => hiByte_setLoByte ..) (absurd · (hother hne)), fun _ _ => rfl⟩
  · exact ⟨_, hostWrite_ibuf hibuf, fun _ => (hostRead_ibuf hibuf).trans (readIbuf_writeIbuf_self ..), by omega,
      fun b hne _ => hostRead_writeIbuf_of_ne hibuf hne, fun _ _ => rfl⟩

end Sys2Proof.Machine
end

section
/-! The opcode map and the encoder's fields (R70 to R74): decoding is inverse to encoding, and what is left over is
the reserved opcodes. -/

namespace Sys2Proof

section
variable {op : Byte} {i : Instr} {rest left : List Byte}

/-- A byte string decodes as its first byte does, and the rest is handed back (R70). -/
theorem decode_cons_eq_ok_iff : decode (op :: rest) = .ok (i, left) ↔ decodeByte op = some i ∧ left = rest := by
  rw [decode]
  cases decodeByte op <;> simp [eq_comm]

theorem decode_cons_eq_reserved_iff : decode (op :: rest) = .error (.reserved op) ↔ decodeByte op = none := by
  rw [decode]
  cases decodeByte op <;> simp

/-- The map refuses the bytes that none of its rows lists (R72). -/
theorem decodeByte_eq_none_iff : decodeByte op = none ↔ op ∉ opcodeMap.map Prod.fst := by
  simp only [decodeByte, Option.map_eq_none_iff, List.find?_eq_none, beq_iff_eq, List.mem_map, not_exists, not_and]

/-- The row whose byte an operation's fields make up is the row of that operation. -/
theorem decodeByte_encodeByte (i : Instr) : decodeByte (encodeByte i) = some i := by
  cases i <;> rfl

/-- Each row's byte is made up of the fields of its operation. -/
theorem encodeByte_of_mem_opcodeMap : ∀ row ∈ opcodeMap, encodeByte row.2 = row.1 := by decide

theorem encodeByte_of_decodeByte (h : decodeByte op = some i) : encodeByte i = op := by
  obtain ⟨row, hfind, rfl⟩ := Option.map_eq_some_iff.mp h
  have hbyte : row.1 = op := by simpa using List.find?_some hfind
  exact (encodeByte_of_mem_opcodeMap row (List.mem_of_find?_eq_some hfind)).trans hbyte

end

/-- Settles O2, from the two directions on one byte. -/
theorem decodeAndEncodeAgree : Obligations.DecodeAndEncodeAgree := by
  refine ⟨fun i rest => decode_cons_eq_ok_iff.mpr ⟨decodeByte_encodeByte i, rfl⟩, fun op rest i left h => ?_⟩
  obtain ⟨hop, hleft⟩ := decode_cons_eq_ok_iff.mp h
  exact ⟨congrArg (fun b => [b]) (encodeByte_of_decodeByte hop), hleft⟩

/-- Settles O1: the rows one by one, and the bytes of no row. -/
theorem opcodeMapDecodes : Obligations.OpcodeMapDecodes := by
  refine ⟨rfl, rfl, rfl, rfl, rfl, rfl, rfl, rfl, rfl, rfl, rfl, rfl, rfl, rfl, rfl, rfl, rfl, rfl, rfl, rfl, rfl, rfl,
    rfl, rfl, fun op hop => ?_⟩
  exact decode_cons_eq_reserved_iff.mpr (decodeByte_eq_none_iff.mpr hop)

/-- The ranges of R74 are the bytes that no row of the map lists. -/
theorem reservedOpcode_iff : ∀ op : Byte, Safety.reservedOpcode op.toNat = true ↔ op ∉ opcodeMap.map Prod.fst := by
  decide

/-- A byte is refused exactly when it is in R74's ranges. -/
theorem decode_singleton_eq_reserved_iff (op : Byte) :
    decode [op] = .error (.reserved op) ↔ Safety.reservedOpcode op.toNat = true := by
  rw [decode_cons_eq_reserved_iff, decodeByte_eq_none_iff, reservedOpcode_iff]

/-- Settles O3: an OPR write of a byte that the decoder refuses performs R211. -/
theorem reservedOpcodesAreIllegal : Obligations.ReservedOpcodesAreIllegal :=
  ⟨rfl, decode_singleton_eq_reserved_iff,
    fun op s hop => Machine.performOpcode_of_reserved ((decode_singleton_eq_reserved_iff op).mpr hop) s, rfl⟩

end Sys2Proof
end

section
/-! The two bytes of a 16-bit register as numbers, and what ARG reaches (R75): the arguments of MODE, SPEED, LIGHT and
DATS. -/

namespace Sys2Proof.Machine

/-- Bits [15:8] as a number. -/
theorem hiByte_eq_ofNat (v : Half) : hiByte v = BitVec.ofNat 8 (v.toNat / 256) := by
  apply BitVec.eq_of_toNat_eq
  simp [hiByte, Nat.shiftRight_eq_div_pow]

/-- Bits [7:0] as a number. -/
theorem loByte_eq_ofNat (v : Half) : loByte v = BitVec.ofNat 8 (v.toNat % 256) := by
  apply BitVec.eq_of_toNat_eq
  simp [loByte]

/-- The state with another ARG. -/
def State.withArg (a : Half) (s : State) : State := { s with arg := a }

/-- Both outcomes go on, and the second next state is `f` of the first. -/
def GoesOnUnder (f : State → State) (o o' : Host.Outcome State Fault Refusal) : Prop :=
  ∃ t, o = .next t ∧ o' = .next (f t)

theorem GoesOnUnder.next {f : State → State} {t t' : State} (h : t' = f t) : GoesOnUnder f (.next t) (.next t') :=
  ⟨t, rfl, congrArg _ h⟩

/-- A guard that comes out the same in both runs. -/
theorem GoesOnUnder.ite {f : State → State} {c : Prop} [Decidable c] {o o' p p' : Host.Outcome State Fault Refusal}
    (ho : GoesOnUnder f o o') (hp : GoesOnUnder f p p') :
    GoesOnUnder f (if c then o else p) (if c then o' else p') := by
  split
  · exact ho
  · exact hp

section
variable {c : Command} {s : State} {a : Half}

/-- ARG reaches a command through its arguments only (R163). -/
theorem commandFrame_withArg (h : commandArgs a c = commandArgs s.arg c) :
    commandFrame c (s.withArg a) = commandFrame c s :=
  congrArg (fun args => frameBytes (commandName c ++ args)) h

theorem commandPlain_withArg (h : commandArgs a c = commandArgs s.arg c) :
    commandPlain c (s.withArg a) = (commandPlain c s).withArg a := by
  rw [commandPlain, commandFrame_withArg h]
  rfl

theorem commandEncrypted_withArg (h : commandArgs a c = commandArgs s.arg c) :
    commandEncrypted c (s.withArg a) = (commandEncrypted c s).withArg a := by
  rw [commandEncrypted, commandFrame_withArg h]
  rfl

end

/-- An operation outside R75's readers of ARG does the same under every ARG: its guards and its output do not name it. -/
theorem exec_withArg_of_not_readsArg {i : Instr} (h : Safety.readsArg i = false) (s : State) (a : Half) :
    GoesOnUnder (State.withArg a) (exec i s) (exec i (s.withArg a)) := by
  cases i with
  | nop | crst => exact .next rfl
  | enc | dec | gunpack | frame | framee | chunk | chunke => exact .ite (.next rfl) (.next rfl)
  | gpack => exact .ite (.ite (.next rfl) (.next rfl)) (.next rfl)
  | cmdLedon | cmdLedoff | cmdDatcp => exact .next (commandEncrypted_withArg rfl)
  | cmdpLedon | cmdpLedoff | cmdpDatcp => exact .next (commandPlain_withArg rfl)
  | cmdMode | cmdSpeed | cmdLight | cmdDats | cmdpMode | cmdpSpeed | cmdpLight | cmdpDats => exact absurd h (by decide)

/-- MODE, SPEED and LIGHT read ARG[7:0] alone (R75). -/
theorem exec_withArg_of_loByte_eq {i : Instr}
    (hi : i ∈ [Instr.cmdMode, .cmdSpeed, .cmdLight, .cmdpMode, .cmdpSpeed, .cmdpLight]) {s : State} {a : Half}
    (h : loByte a = loByte s.arg) : GoesOnUnder (State.withArg a) (exec i s) (exec i (s.withArg a)) := by
  have hargs : [loByte a] = [loByte s.arg] := congrArg (fun b => [b]) h
  simp only [List.mem_cons, List.not_mem_nil, or_false] at hi
  rcases hi with rfl | rfl | rfl | rfl | rfl | rfl
  · exact .next (commandEncrypted_withArg (c := .mode) hargs)
  · exact .next (commandEncrypted_withArg (c := .speed) hargs)
  · exact .next (commandEncrypted_withArg (c := .light) hargs)
  · exact .next (commandPlain_withArg (c := .mode) hargs)
  · exact .next (commandPlain_withArg (c := .speed) hargs)
  · exact .next (commandPlain_withArg (c := .light) hargs)

/-- Settles O46, for every other ARG by name. -/
theorem onlyCommandsReadArg : Obligations.OnlyCommandsReadArg :=
  ⟨fun _ => exec_withArg_of_not_readsArg,
    fun _ hi s a hmod => exec_withArg_of_loByte_eq hi (by rw [loByte_eq_ofNat, loByte_eq_ofNat, hmod])⟩

end Sys2Proof.Machine
end

section
/-! The host's script (R77, R78): what each item does in one step, and what each line expands to. -/

namespace Sys2Proof.Machine

section
variable {s : State} {a : HostAddr} {v m : Byte} {l : Label} {item : HostItem}

/-- A step runs the item the host stands at. -/
theorem step_of_currentItem (h : currentItem s = some item) : step s = runItem item s := by
  rw [step, runNext, h]

theorem step_wr (h : currentItem s = some (.wr a v)) : step s = hostWrite a v (advanceHost s) :=
  step_of_currentItem h

theorem step_jz (h : currentItem s = some (.jz a m l)) : step s = branchHost a l (fun b => b &&& m == 0) s :=
  step_of_currentItem h

theorem step_jnz (h : currentItem s = some (.jnz a m l)) : step s = branchHost a l (fun b => b &&& m != 0) s :=
  step_of_currentItem h

/-- Past the last item and at `halt` nothing happens (R261). -/
theorem step_of_ended (h : Safety.ended s = true) : step s = .next s := by
  rw [Safety.ended] at h
  split at h
  · next hnone => rw [step, runNext, hnone]
  · next hhalt => exact step_of_currentItem hhalt
  · exact absurd h Bool.false_ne_true

/-! Jumps. -/

/-- A jump goes to the first definition of its label (log entry 8). -/
theorem jumpTo_of_first {p : Nat} (hp : s.script[p]? = some (HostItem.label l))
    (hfirst : ∀ q < p, s.script[q]? ≠ some (HostItem.label l)) : jumpTo l s = .next { s with hostPos := p } := by
  have hpos : labelPos l s.script = some p := by
    obtain ⟨hlt, hget⟩ := List.getElem?_eq_some_iff.mp hp
    refine List.findIdx?_eq_some_iff_getElem.mpr ⟨hlt, beq_iff_eq.mpr hget, fun q hq hbeq => hfirst q hq ?_⟩
    exact List.getElem?_eq_some_iff.mpr ⟨hq.trans hlt, beq_iff_eq.mp hbeq⟩
  rw [jumpTo, hpos]

/-- A jump to a label that the script does not define faults (log entry 7). -/
theorem jumpTo_of_undefined (hnone : ∀ p : Nat, s.script[p]? ≠ some (HostItem.label l)) :
    jumpTo l s = .fault (.undefinedLabel l) := by
  have hpos : labelPos l s.script = none := by
    refine List.findIdx?_eq_none_iff.mpr fun item hmem => beq_eq_false_iff_ne.mpr ?_
    obtain ⟨p, hp⟩ := List.mem_iff_getElem?.mp hmem
    rintro rfl
    exact hnone p hp
  rw [jumpTo, hpos]

/-- A branch that is not taken records its read and goes on (R77). -/
theorem branchHost_not_taken {taken : Byte → Bool} (h : taken (hostRead s a) = false) :
    branchHost a l taken s = .next { s with trace := s.trace ++ [hostRead s a], hostPos := s.hostPos + 1 } := by
  rw [branchHost, h]
  rfl

/-- A branch that is taken records its read and jumps (R77). -/
theorem branchHost_taken {taken : Byte → Bool} (h : taken (hostRead s a) = true) :
    (∀ p : Nat, s.script[p]? = some (HostItem.label l) → (∀ q < p, s.script[q]? ≠ some (HostItem.label l)) →
      branchHost a l taken s = .next { s with trace := s.trace ++ [hostRead s a], hostPos := p }) ∧
    ((∀ p : Nat, s.script[p]? ≠ some (HostItem.label l)) →
      branchHost a l taken s = .fault (.undefinedLabel l)) := by
  rw [branchHost, if_pos h]
  exact ⟨fun _ hp hfirst => jumpTo_of_first (s := recordRead (hostRead s a) s) hp hfirst,
    jumpTo_of_undefined (s := recordRead (hostRead s a) s)⟩

end

/-- The byte that `jmp` reads passes its mask 0 in every state (R78). -/
theorem hostRead_and_zero (s : State) (a : HostAddr) : hostRead s a &&& 0x00 = 0 := BitVec.and_zero

/-- Settles O47, form by form. -/
theorem hostScriptForms : Obligations.HostScriptForms := by
  refine ⟨fun s a v => step_wr, fun i => rfl, fun s a => step_of_currentItem, fun s l => step_of_currentItem,
    fun s a m l h => ?jz, fun s a m l h => ?jnz, fun s l item hitem h p hp hfirst => ?jmp, fun s => step_of_ended⟩
  case jz =>
    rw [step_jz h]
    exact ⟨fun hb => branchHost_not_taken (beq_eq_false_iff_ne.mpr hb), fun hb => branchHost_taken (beq_iff_eq.mpr hb)⟩
  case jnz =>
    rw [step_jnz h]
    exact ⟨fun hb => branchHost_not_taken (bne_eq_false_iff_eq.mpr hb), fun hb => branchHost_taken (bne_iff_ne.mpr hb)⟩
  case jmp =>
    obtain rfl : HostItem.jz 0x00001 0x00 l = item := List.head_eq_of_cons_eq hitem
    rw [step_jz h]
    obtain ⟨hjump, -⟩ := branchHost_taken (taken := fun b => b &&& 0x00 == 0)
      (beq_iff_eq.mpr (hostRead_and_zero s 0x00001))
    exact hjump p hp hfirst

/-- Settles O10: the step is the write to OPR with the host at its next item. -/
theorem stepRunsDecodedOperation : Obligations.StepRunsDecodedOperation :=
  ⟨fun _ _ _ _ h hdec => (step_wr h).trans (performOpcode_of_decode hdec _),
    fun _ _ _ h hdec => (step_wr h).trans (performOpcode_of_reserved hdec _)⟩

/-- A byte is its number's low 8 bits. -/
theorem byte_ofNat_mod (w : Nat) : BitVec.ofNat 8 (w % 256) = BitVec.ofNat 8 w := by simp [← BitVec.toNat_inj]

/-- An 8-bit table word is one byte. -/
theorem tableBytes_eight (w : Nat) : tableBytes 8 w = [BitVec.ofNat 8 w] := by
  simp [tableBytes, byte_ofNat_mod]

/-- `withFetchWord` puts the host at the write of the word's byte to OPR. -/
theorem withFetchWord_eight (s : State) (w : Nat) :
    s.withFetchWord 8 w = { s with script := [.wr 0x00000 (BitVec.ofNat 8 w)], hostPos := 0 } :=
  congrArg (fun b => { s with script := [.wr 0x00000 b], hostPos := 0 }) (byte_ofNat_mod w)

/-- Settles O11: the placed word is one opcode write. -/
theorem fetchWordRunsNext : Obligations.FetchWordRunsNext := by
  intro s w i h
  obtain ⟨rest, hdec⟩ : ∃ rest, decode [BitVec.ofNat 8 w] = .ok (i, rest) := by
    rw [decodeTableWord, tableBytes_eight] at h
    split at h
    · next hdec => cases h; exact ⟨_, hdec⟩
    · cases h
  obtain ⟨hstep, -⟩ := stepRunsDecodedOperation
  rw [withFetchWord_eight]
  exact hstep _ _ i rest rfl hdec

/-! Expansions. -/

theorem expandLoad_length (off : Nat) (bytes : List Byte) : (expandLoad off bytes).length = bytes.length := by
  simp [expandLoad]

/-- A `load` writes its first byte at OFF and is then a `load` of the rest at the next index (R78). -/
theorem expandLoad_cons (off : Nat) (b : Byte) (bytes : List Byte) :
    expandLoad off (b :: bytes) = .wr (BitVec.ofNat 17 (0x10000 + off)) b :: expandLoad (off + 1) bytes := by
  simp [expandLoad, List.zipIdx_succ, Nat.add_assoc, Nat.add_comm 1]

/-- The address of an IBUF index (R53). -/
theorem ibufAddr_toNat {i : Nat} (hi : i < 65536) : (BitVec.ofNat 17 (0x10000 + i)).toNat = 0x10000 + i := by
  rw [BitVec.toNat_ofNat]
  omega

theorem expandLoad_getElem? {off k : Nat} {bytes : List Byte} (hk : k < bytes.length) :
    (expandLoad off bytes)[k]? = some (.wr (BitVec.ofNat 17 (0x10000 + (off + k))) (bytes.getD k 0)) := by
  simp [expandLoad, hk, Nat.add_assoc]

theorem expandSetilen_eq (n : Half) : expandSetilen n =
    [.wr 0x00002 (BitVec.ofNat 8 (n.toNat / 256)), .wr 0x00003 (BitVec.ofNat 8 (n.toNat % 256))] := by
  rw [expandSetilen, hiByte_eq_ofNat, loByte_eq_ofNat]

theorem expandSetarg_eq (n : Half) : expandSetarg n =
    [.wr 0x00004 (BitVec.ofNat 8 (n.toNat / 256)), .wr 0x00005 (BitVec.ofNat 8 (n.toNat % 256))] := by
  rw [expandSetarg, hiByte_eq_ofNat, loByte_eq_ofNat]

/-- Settles O48, line by line. -/
theorem pseudoExpansions : Obligations.PseudoExpansions := by
  refine ⟨expandSetilen_eq, expandSetarg_eq, fun off bytes hfit => ⟨expandLoad_length off bytes, fun k hk => ?load⟩,
    fun bytes n hn => ?input, rfl, rfl, fun _ => rfl, fun s => hostRead_and_zero s _⟩
  case load =>
    exact ⟨_, (ibufAddr_toNat (by omega)).trans (Nat.add_assoc ..).symm, expandLoad_getElem? hk⟩
  case input =>
    have hcount : BitVec.ofNat 16 bytes.length = n := by rw [← hn, BitVec.ofNat_toNat, BitVec.setWidth_eq]
    rw [← hcount]
    rfl

end Sys2Proof.Machine
end

section
/-! Running a `load` and a `setilen` (R78): the state each leaves behind. -/

namespace Sys2Proof.Machine

/-- The items the host has yet to do. -/
def remaining (s : State) : List HostItem := s.script.drop s.hostPos

section
variable {s t : State} {item : HostItem} {rest : List HostItem}

theorem currentItem_eq_head?_remaining (s : State) : currentItem s = (remaining s).head? := List.head?_drop.symm

theorem currentItem_of_remaining (h : remaining s = item :: rest) : currentItem s = some item := by
  rw [currentItem_eq_head?_remaining, h, List.head?_cons]

/-- A host that has moved past the first items it had to do has the rest left. -/
theorem remaining_of_advance {done : List HostItem} (h : remaining s = done ++ rest) (hscript : t.script = s.script)
    (hpos : t.hostPos = s.hostPos + done.length) : remaining t = rest := by
  rw [remaining, hscript, hpos, ← List.drop_drop]
  exact (congrArg (List.drop done.length) h).trans List.drop_left

/-- A host with nothing left to do has ended (R261). -/
theorem ended_of_remaining_nil (h : remaining s = []) : Safety.ended s = true := by
  rw [Safety.ended, currentItem_eq_head?_remaining, h]
  rfl

/-- A run begins with its first step. -/
theorem run_succ_of_step {M : Host.Core} {s t : M.State} (h : M.step s = .next t) (n : Nat) :
    M.run (n + 1) s = M.run n t := by
  rw [Host.Core.run, h]

end

/-! `load`. -/

/-- IBUF with bytes written from an index on, in order. -/
def Memory.insertBytes : List Host.Cell → Nat → List Byte → List Host.Cell
  | m, _, [] => m
  | m, i, b :: bytes => Memory.insertBytes (Memory.insert m i b) (i + 1) bytes

theorem Memory.lookup_insertBytes_outside {i k : Nat} (m : List Host.Cell) (bytes : List Byte)
    (h : k < i ∨ i + bytes.length ≤ k) : Memory.lookup (Memory.insertBytes m i bytes) k = Memory.lookup m k := by
  induction bytes generalizing i m with
  | nil => rfl
  | cons b bytes ih =>
    rw [List.length_cons] at h
    rw [Memory.insertBytes, ih _ (by omega), Memory.lookup_insert_other _ _ _ _ (by omega)]

theorem Memory.lookup_insertBytes {i k : Nat} (m : List Host.Cell) {bytes : List Byte} (hk : k < bytes.length) :
    Memory.lookup (Memory.insertBytes m i bytes) (i + k) = some (bytes.getD k 0) := by
  induction bytes generalizing i k m with
  | nil => exact absurd hk (Nat.not_lt_zero k)
  | cons b bytes ih =>
    rw [Memory.insertBytes]
    cases k with
    | zero => exact (Memory.lookup_insertBytes_outside _ _ (by omega)).trans (Memory.lookup_insert_self m i b)
    | succ k =>
      rw [← Nat.add_assoc, Nat.add_right_comm]
      exact ih _ (Nat.lt_of_succ_lt_succ hk)

/-- The state after a `load`: its bytes are in IBUF, and the host is past its writes. -/
def afterLoad (off : Nat) (bytes : List Byte) (s : State) : State :=
  { s with ibuf := Memory.insertBytes s.ibuf off bytes, hostPos := s.hostPos + bytes.length }

theorem readIbuf_afterLoad {off k : Nat} {bytes : List Byte} (s : State) (hk : k < bytes.length) :
    readIbuf (afterLoad off bytes s) (off + k) = bytes.getD k 0 := by
  simp only [readIbuf, afterLoad, Memory.lookup_insertBytes _ hk]

theorem readIbuf_afterLoad_outside {off k : Nat} {bytes : List Byte} (s : State)
    (h : k < off ∨ off + bytes.length ≤ k) : readIbuf (afterLoad off bytes s) k = readIbuf s k := by
  simp only [readIbuf, afterLoad, Memory.lookup_insertBytes_outside _ _ h]

/-- The first byte of a `load`, then the `load` of the rest at the next index. -/
theorem afterLoad_cons (off : Nat) (b : Byte) (bytes : List Byte) (s : State) :
    afterLoad off (b :: bytes) s = afterLoad (off + 1) bytes (writeIbuf (advanceHost s) off b) := by
  simp [afterLoad, Memory.insertBytes, writeIbuf, advanceHost, Nat.add_assoc, Nat.add_comm 1]

theorem remaining_afterLoad {off : Nat} {bytes : List Byte} {s : State} {rest : List HostItem}
    (h : remaining s = expandLoad off bytes ++ rest) : remaining (afterLoad off bytes s) = rest :=
  remaining_of_advance h rfl (congrArg (s.hostPos + ·) (expandLoad_length off bytes).symm)

/-- Running a `load` that stays inside IBUF (R78). -/
theorem run_expandLoad {off : Nat} {bytes : List Byte} {s : State} {rest : List HostItem}
    (h : remaining s = expandLoad off bytes ++ rest) (hfit : off + bytes.length ≤ 65536) (n : Nat) :
    Sys2Proof.core.run (bytes.length + n) s = Sys2Proof.core.run n (afterLoad off bytes s) := by
  induction bytes generalizing off s with
  | nil => rw [List.length_nil, Nat.zero_add]; rfl
  | cons b bytes ih =>
    rw [List.length_cons] at hfit ⊢
    rw [expandLoad_cons, List.cons_append] at h
    have haddr := ibufAddr_toNat (i := off) (by omega)
    have hstep : step s = .next (writeIbuf (advanceHost s) off b) := by
      rw [step_wr (currentItem_of_remaining h), hostWrite_ibuf (by omega), haddr, Nat.add_sub_cancel_left]
    have hrest : remaining (writeIbuf (advanceHost s) off b) = expandLoad (off + 1) bytes ++ rest :=
      remaining_of_advance (done := [_]) h rfl rfl
    rw [Nat.add_right_comm, afterLoad_cons, ← ih hrest (by omega)]
    exact run_succ_of_step (M := Sys2Proof.core) hstep _

/-! `setilen`. -/

/-- Writing both bytes of a number leaves the number. -/
theorem setLoByte_setHiByte (v n : Half) : setLoByte (setHiByte v (hiByte n)) (loByte n) = n :=
  half_ext (by simp) (by simp)

/-- The state after a `setilen`: ILEN is its number, and the host is past its two writes. -/
def afterSetilen (n : Half) (s : State) : State := { s with ilen := n, hostPos := s.hostPos + 2 }

theorem remaining_afterSetilen {n : Half} {s : State} {rest : List HostItem}
    (h : remaining s = expandSetilen n ++ rest) : remaining (afterSetilen n s) = rest :=
  remaining_of_advance h rfl rfl

/-- Running a `setilen` (R78). -/
theorem run_expandSetilen {n : Half} {s : State} {rest : List HostItem} (h : remaining s = expandSetilen n ++ rest)
    (k : Nat) : Sys2Proof.core.run (k + 2) s = Sys2Proof.core.run k (afterSetilen n s) := by
  let high : State := { s with ilen := setHiByte s.ilen (hiByte n), hostPos := s.hostPos + 1 }
  have hhigh : step s = .next high := step_wr (currentItem_of_remaining h)
  have hrest : remaining high = .wr 0x00003 (loByte n) :: rest := remaining_of_advance (done := [_]) h rfl rfl
  have hlow : step high = .next (afterSetilen n s) :=
    (step_wr (currentItem_of_remaining hrest)).trans
      (congrArg (fun v => Host.Outcome.next (afterSetilen v s)) (setLoByte_setHiByte s.ilen n))
  exact (run_succ_of_step (M := Sys2Proof.core) hhigh _).trans (run_succ_of_step (M := Sys2Proof.core) hlow _)

/-- Settles O49: the line is a `load` at 0 and then a `setilen` of its count, and nothing is left after them. -/
theorem inputLoadsPayload : Obligations.InputLoadsPayload := by
  intro s bytes hwf hscript hpos
  have hlen : bytes.length ≤ 65535 := of_decide_eq_true hwf
  let loaded := afterLoad 0 bytes s
  let final := afterSetilen (BitVec.ofNat 16 bytes.length) loaded
  have hload : remaining s = expandLoad 0 bytes ++ expandSetilen (BitVec.ofNat 16 bytes.length) := by
    rw [remaining, hpos, hscript]
    rfl
  have hset : remaining loaded = expandSetilen (BitVec.ofNat 16 bytes.length) ++ [] := remaining_afterLoad hload
  have hrun : Sys2Proof.core.run (bytes.length + 2) s = .next final :=
    (run_expandLoad hload (by omega) 2).trans (run_expandSetilen hset 0)
  refine ⟨final, hrun, ?count, fun k hk => ?inside, fun k hk => ?outside, rfl, rfl, rfl, rfl, rfl,
    ended_of_remaining_nil (remaining_afterSetilen hset)⟩
  case count => exact (BitVec.toNat_ofNat ..).trans (Nat.mod_eq_of_lt (by omega))
  case inside =>
    have hread := readIbuf_afterLoad (off := 0) s hk
    rwa [Nat.zero_add] at hread
  case outside => exact readIbuf_afterLoad_outside s (.inr ((Nat.zero_add _).trans_le hk))

end Sys2Proof.Machine
end

section
/-! The cipher undone (R115): a round of decryption undoes a round of encryption up to the byte substitution and the
row shift, in both orders, so the rounds cancel from the middle outward. -/

namespace Sys2Proof.Machine.Aes

/-! SubBytes and ShiftRows, which open every round, as one map. -/

/-- The two transformations that open a round of encryption (R110). -/
def subShift (s : Block) : Block := shiftRows (subBytes s)

/-- The two transformations that open a round of decryption (R114). -/
def invSubShift (s : Block) : Block := invSubBytes (invShiftRows s)

theorem invSubShift_subShift (s : Block) : invSubShift (subShift s) = s := by
  rw [invSubShift, subShift, invShiftRows_shiftRows, invSubBytes_subBytes]

theorem subShift_invSubShift (s : Block) : subShift (invSubShift s) = s := by
  rw [invSubShift, subShift, subBytes_invSubBytes, shiftRows_invShiftRows]

/-! Rounds 1 to 9. -/

/-- A round of decryption undoes the round of encryption under the same key, but for how each of them opens. -/
theorem decRound_subShift_encRound (rk s : Block) : decRound rk (subShift (encRound rk s)) = subShift s := by
  change invMixColumns (addRoundKey rk (invSubShift (subShift (addRoundKey rk (mixColumns (subShift s)))))) = subShift s
  rw [invSubShift_subShift, addRoundKey_addRoundKey, invMixColumns_mixColumns]

theorem encRound_invSubShift_decRound (rk s : Block) : encRound rk (invSubShift (decRound rk s)) = invSubShift s := by
  change addRoundKey rk (mixColumns (subShift (invSubShift (invMixColumns (addRoundKey rk (invSubShift s)))))) =
    invSubShift s
  rw [subShift_invSubShift, mixColumns_invMixColumns, addRoundKey_addRoundKey]

/-- Where each `g r` undoes `f r` up to `p`, the `g`s in reverse order undo the `f`s up to `p`. -/
theorem foldl_reverse_foldl {ι α : Type} {f g : ι → α → α} {p : α → α} (h : ∀ r s, g r (p (f r s)) = p s)
    (rs : List ι) (s : α) :
    rs.reverse.foldl (fun s r => g r s) (p (rs.foldl (fun s r => f r s) s)) = p s := by
  induction rs generalizing s with
  | nil => rfl
  | cons r rs ih =>
    rw [List.reverse_cons, List.foldl_append, List.foldl_cons (l := rs), ih (f r s)]
    exact h r s

/-- Rounds 1 to 9 of encryption (R110). -/
def encRounds (k s : Block) : Block := [1, 2, 3, 4, 5, 6, 7, 8, 9].foldl (fun s r => encRound (roundKey k r) s) s

/-- Rounds 9 down to 1 of decryption (R114). -/
def decRounds (k s : Block) : Block := [9, 8, 7, 6, 5, 4, 3, 2, 1].foldl (fun s r => decRound (roundKey k r) s) s

theorem decRounds_subShift_encRounds (k s : Block) : decRounds k (subShift (encRounds k s)) = subShift s :=
  foldl_reverse_foldl (fun r => decRound_subShift_encRound (roundKey k r)) [1, 2, 3, 4, 5, 6, 7, 8, 9] s

theorem encRounds_invSubShift_decRounds (k s : Block) : encRounds k (invSubShift (decRounds k s)) = invSubShift s :=
  foldl_reverse_foldl (fun r => encRound_invSubShift_decRound (roundKey k r)) [9, 8, 7, 6, 5, 4, 3, 2, 1] s

/-! The whole cipher. -/

theorem encrypt_eq (k b : Block) :
    encrypt k b = addRoundKey (roundKey k 10) (subShift (encRounds k (addRoundKey (roundKey k 0) b))) := rfl

theorem decrypt_eq (k b : Block) :
    decrypt k b = addRoundKey (roundKey k 0) (invSubShift (decRounds k (addRoundKey (roundKey k 10) b))) := rfl

@[simp] theorem decrypt_encrypt (k b : Block) : decrypt k (encrypt k b) = b := by
  rw [decrypt_eq, encrypt_eq, addRoundKey_addRoundKey, decRounds_subShift_encRounds, invSubShift_subShift,
    addRoundKey_addRoundKey]

@[simp] theorem encrypt_decrypt (k b : Block) : encrypt k (decrypt k b) = b := by
  rw [encrypt_eq, decrypt_eq, addRoundKey_addRoundKey, encRounds_invSubShift_decRounds, subShift_invSubShift,
    addRoundKey_addRoundKey]

/-- Settles O20: each of the two has the other as its inverse on both sides. -/
theorem aesInverseLaw : Obligations.AesInverseLaw :=
  ⟨decrypt_encrypt, encrypt_decrypt, fun K =>
    ⟨Function.bijective_iff_has_inverse.mpr ⟨decrypt K, decrypt_encrypt K, encrypt_decrypt K⟩,
      Function.bijective_iff_has_inverse.mpr ⟨encrypt K, encrypt_decrypt K, decrypt_encrypt K⟩⟩⟩

end Sys2Proof.Machine.Aes
end

section
/-! The S-box as a map (R105), and the cipher's published example. -/

namespace Sys2Proof.Machine.Aes

/-- The affine map of R105. -/
def affine (b : Byte) : Byte :=
  b ^^^ b.rotateLeft 1 ^^^ b.rotateLeft 2 ^^^ b.rotateLeft 3 ^^^ b.rotateLeft 4 ^^^ 0x63

/-- The inverse of the affine map: its circulant matrix inverted, with the constant that takes 0x63 to 0. -/
def invAffine (a : Byte) : Byte := a.rotateLeft 1 ^^^ a.rotateLeft 3 ^^^ a.rotateLeft 6 ^^^ 0x05

theorem affine_invAffine : ∀ a : Byte, affine (invAffine a) = a := by decide +kernel

/-- Before the affine map, the S-box has the field inverse of its argument. -/
theorem gmul_invAffine_sbox : ∀ a : Byte, a ≠ 0 → gmul a (invAffine (sbox a)) = 1 := by decide +kernel

theorem invAffine_sbox_zero : invAffine (sbox 0) = 0 := by decide

/-- Settles O21: the field inverse is what the affine map's inverse takes the table's entry to. -/
theorem sboxIsInverseThenAffine : Obligations.SboxIsInverseThenAffine := fun a =>
  ⟨invAffine (sbox a), fun h => h ▸ invAffine_sbox_zero, gmul_invAffine_sbox a, (affine_invAffine (sbox a)).symm⟩

theorem decrypt_eq_of_encrypt_eq {k b c : Block} (h : encrypt k b = c) : decrypt k c = b := h ▸ decrypt_encrypt k b

set_option Elab.async false in
/-- Settles O22: the encryption is evaluated, and the decryption undoes it. -/
theorem fipsExamples : Obligations.FipsExamples :=
  (and_iff_left_of_imp decrypt_eq_of_encrypt_eq).mpr (by decide +kernel)

end Sys2Proof.Machine.Aes
end

section
/-! ENC and DEC (R120, R121): the same operation but for the map of the block. -/

namespace Sys2Proof.Machine

/-- IBUF[0..15], the block that ENC and DEC read (R56). -/
def inputBlock (s : State) : Block := Vector.ofFn fun k => readIbuf s k.val

theorem blockOfBytes_ibufSlice (s : State) : blockOfBytes (ibufSlice s 0 16) = inputBlock s := by
  ext k hk
  rw [blockOfBytes_getElem _ _ hk, ibufSlice_getD _ _ _ _ _ hk, Nat.zero_add, inputBlock, Vector.getElem_ofFn]

/-- A block that the host copied from OBUF into IBUF[0..15] is the block that OBUF held. -/
theorem inputBlock_eq_of_reads {t u : State} (h : ∀ k < 16, readIbuf u k = readObuf t k) : inputBlock u = t.obuf := by
  ext k hk
  rw [inputBlock, Vector.getElem_ofFn, h k hk, readObuf_eq_getElem t k hk]

/-- The state after a success that puts out a whole block and touches no cursor. -/
def putBlock (b : Block) (s : State) : State := { s with obuf := b, olen := 16, err := .ok, last := false }

theorem readObuf_putBlock_inputBlock (s u : State) (k : Nat) (hk : k < 16) :
    readObuf (putBlock (inputBlock s) u) k = readIbuf s k := by
  rw [readObuf_eq_getElem _ k hk, putBlock, inputBlock, Vector.getElem_ofFn]

/-- Putting out sixteen bytes is putting out their block (R9). -/
theorem succeed_outBytes_of_length {bytes : List Byte} (hlen : bytes.length = 16) (s : State) :
    succeed (outBytes bytes s) = putBlock (blockOfBytes bytes) s := by
  rw [succeed, outBytes, hlen]
  rfl

/-- `ILEN = 16` as a number and as a register value. -/
theorem ilen_eq_sixteen_iff {s : State} : s.ilen = 16 ↔ s.ilen.toNat = 16 := BitVec.toNat_inj.symm

/-- The operation `i` maps the block in IBUF by `f` under KEY when ILEN is 16. -/
def MapsBlock (i : Instr) (f : Block → Block → Block) : Prop :=
  ∀ s : State, s.ilen.toNat = 16 → exec i s = .next (putBlock (f s.key (inputBlock s)) s)

theorem enc_mapsBlock : MapsBlock .enc Aes.encrypt := by
  intro s h
  have hexec : exec .enc s = _ := execEnc_ok (ilen_eq_sixteen_iff.mpr h)
  rw [hexec, succeed_outBytes_of_length (encryptBytes_length ..), blockOfBytes_encryptBytes, blockOfBytes_ibufSlice]

theorem dec_mapsBlock : MapsBlock .dec Aes.decrypt := by
  intro s h
  have hexec : exec .dec s = _ := execDec_ok (ilen_eq_sixteen_iff.mpr h)
  rw [hexec, succeed_outBytes_of_length (decryptBytes_length ..), blockOfBytes_decryptBytes, blockOfBytes_ibufSlice]

/-- Settles O18, branch by branch. -/
theorem encRule : Obligations.EncRule :=
  ⟨rfl, rfl, enc_mapsBlock, fun _ h => execEnc_error (mt ilen_eq_sixteen_iff.mp h)⟩

/-- Settles O19, branch by branch. -/
theorem decRule : Obligations.DecRule :=
  ⟨rfl, rfl, dec_mapsBlock, fun _ h => execDec_error (mt ilen_eq_sixteen_iff.mp h)⟩

/-- Where `g` undoes `f`, the operation that maps by `g` undoes the one that maps by `f`, through any second state that
holds the first output under the same KEY. -/
theorem MapsBlock.undoes {i j : Instr} {f g : Block → Block → Block} (hi : MapsBlock i f) (hj : MapsBlock j g)
    (hgf : ∀ K b, g K (f K b) = b) (s : State) (hs : s.ilen.toNat = 16) :
    ∃ t, exec i s = .next t ∧ ∀ u : State, u.key = s.key → u.ilen.toNat = 16 →
      (∀ k < 16, readIbuf u k = readObuf t k) →
        ∃ v, exec j u = .next v ∧ v.err = .ok ∧ ∀ k < 16, readObuf v k = readIbuf s k := by
  refine ⟨_, hi s hs, fun u hkey hu hcopy => ⟨_, hj u hu, rfl, ?_⟩⟩
  have hback : g u.key (inputBlock u) = inputBlock s := by
    rw [inputBlock_eq_of_reads hcopy, hkey]
    exact hgf s.key (inputBlock s)
  rw [hback]
  exact readObuf_putBlock_inputBlock s u

/-- Settles O23, from the inverse law in its two orders. -/
theorem decUndoesEnc : Obligations.DecUndoesEnc :=
  ⟨enc_mapsBlock.undoes dec_mapsBlock Aes.decrypt_encrypt, dec_mapsBlock.undoes enc_mapsBlock Aes.encrypt_decrypt⟩

end Sys2Proof.Machine
end

section
/-! Glyphs (R140 to R144): the layout of R141 as a relation between packed bytes and grid bytes. Each side determines
the other, GPACK and GUNPACK both establish it, and so they undo each other. -/

namespace Sys2Proof.Machine

/-! The layout. -/

/-- The packed bytes hold every cell of the grid bytes at its place (R141). -/
def HoldsGrid (packed rows : Nat → Byte) : Prop :=
  ∀ c < 6, ∀ r < 12, (packed (glyphPlace c r).1).getLsbD (glyphPlace c r).2 = (rows r).getLsbD (7 - c)

/-- The pad bits of all twelve grid bytes are 0 (R140). -/
def PadBitsClear (rows : Nat → Byte) : Prop := ∀ r < 12, (rows r).getLsbD 0 = false ∧ (rows r).getLsbD 1 = false

section
variable {packed packed' rows rows' : Nat → Byte}

/-- The layout reads nine packed bytes and twelve grid bytes. -/
theorem HoldsGrid.congr (h : HoldsGrid packed rows) (hpacked : ∀ j < 9, packed' j = packed j)
    (hrows : ∀ r < 12, rows' r = rows r) : HoldsGrid packed' rows' := by
  intro c hc r hr
  rw [hpacked _ (glyphPlace_lt c hc r hr).1, hrows r hr]
  exact h c hc r hr

/-- Rows 0 to 7 by COLBYTE (R141). -/
theorem HoldsGrid.columns (h : HoldsGrid packed rows) : ∀ c < 6, ∀ r < 8,
    (packed ([0, 2, 3, 5, 6, 8].getD c 0)).getLsbD (7 - r) = (rows r).getLsbD (7 - c) := by
  intro c hc r hr
  have hplace : glyphPlace c r = (colByte c, 7 - r) := if_pos hr
  have hcell := h c hc r (by omega)
  rwa [hplace] at hcell

theorem glyphPlace_even {r : Nat} (k : Nat) (hr : 8 ≤ r) : glyphPlace (2 * k) r = (pairByte k, 15 - r) := by
  simp [glyphPlace, Nat.not_lt.mpr hr]

theorem glyphPlace_odd {r : Nat} (k : Nat) (hr : 8 ≤ r) : glyphPlace (2 * k + 1) r = (pairByte k, 11 - r) := by
  simp [glyphPlace, Nat.not_lt.mpr hr, Nat.add_mod]

/-- Rows 8 to 11 by PAIRBYTE (R141). -/
theorem HoldsGrid.pairs (h : HoldsGrid packed rows) : ∀ k < 3, ∀ r < 12, 8 ≤ r →
    (packed ([1, 4, 7].getD k 0)).getLsbD (15 - r) = (rows r).getLsbD (7 - 2 * k) ∧
    (packed ([1, 4, 7].getD k 0)).getLsbD (11 - r) = (rows r).getLsbD (7 - (2 * k + 1)) := by
  intro k hk r hr hlow
  have heven := h (2 * k) (by omega) r hr
  have hodd := h (2 * k + 1) (by omega) r hr
  rw [glyphPlace_even k hlow] at heven
  rw [glyphPlace_odd k hlow] at hodd
  exact ⟨heven, hodd⟩

/-- Every packed bit is a cell, so the grid determines the packed bytes. -/
theorem HoldsGrid.packed_unique (h : HoldsGrid packed rows) (h' : HoldsGrid packed' rows) :
    ∀ j < 9, packed' j = packed j := by
  intro j hj
  refine BitVec.eq_of_getLsbD_eq fun b hb => ?_
  obtain ⟨hc, hr⟩ := glyphCell_lt j hj b hb
  have hcell := (h' _ hc _ hr).trans (h _ hc _ hr).symm
  rwa [glyphPlace_glyphCell j hj b hb] at hcell

/-- Every grid bit is a cell or a pad bit, so the packed bytes determine a grid whose pad bits are clear. -/
theorem HoldsGrid.rows_unique (h : HoldsGrid packed rows) (h' : HoldsGrid packed rows') (hpad : PadBitsClear rows)
    (hpad' : PadBitsClear rows') : ∀ r < 12, rows' r = rows r := by
  intro r hr
  obtain ⟨hzero, hone⟩ := hpad r hr
  obtain ⟨hzero', hone'⟩ := hpad' r hr
  refine BitVec.eq_of_getLsbD_eq fun b hb => ?_
  match b with
  | 0 => exact hzero'.trans hzero.symm
  | 1 => exact hone'.trans hone.symm
  | b + 2 =>
    have hcell := (h' (5 - b) (by omega) r hr).symm.trans (h (5 - b) (by omega) r hr)
    rwa [show 7 - (5 - b) = b + 2 by omega] at hcell

end

/-! The two maps establish it. -/

theorem holdsGrid_packGlyph (rows : List Byte) : HoldsGrid ((packGlyph rows).getD · 0) (rows.getD · 0) :=
  fun c hc r hr => packedCell_packGlyph rows c r hc hr

theorem holdsGrid_unpackGlyph (p : List Byte) : HoldsGrid (p.getD · 0) ((unpackGlyph p).getD · 0) :=
  fun c hc r hr => (gridCell_unpackGlyph p c r hc hr).symm

theorem padBitsClear_unpackGlyph (p : List Byte) : PadBitsClear ((unpackGlyph p).getD · 0) :=
  fun r hr => ⟨unpackGlyph_getLsbD p r 0 hr (by decide), unpackGlyph_getLsbD p r 1 hr (by decide)⟩

/-- The check of GPACK's pad bits (R142). -/
theorem all_padClear_iff (s : State) : (ibufSlice s 0 12).all padClear = true ↔ PadBitsClear (readIbuf s) := by
  simp [ibufSlice, PadBitsClear, padClear_iff]

theorem readIbuf_eq_getD_ibufSlice (s : State) {n k : Nat} (hk : k < n) : readIbuf s k = (ibufSlice s 0 n).getD k 0 := by
  rw [ibufSlice_getD s 0 n k 0 hk, Nat.zero_add]

/-! The two operations. -/

/-- A success that puts out `n` bytes changes OBUF, OLEN and the status alone (R27). -/
theorem succeed_outBytes_eq {bytes : List Byte} {n : Nat} (hlen : bytes.length = n) (s : State) :
    succeed (outBytes bytes s) =
      { s with obuf := blockOfBytes bytes, olen := BitVec.ofNat 8 n, err := .ok, last := false } := by
  subst hlen
  rfl

/-- OBUF after a success that puts out bytes, zero past their end (R9). -/
theorem readObuf_succeed_outBytes (bytes : List Byte) (s : State) {j : Nat} (hj : j < 16) :
    readObuf (succeed (outBytes bytes s)) j = bytes.getD j 0 := readObuf_of_obuf rfl j hj

theorem readObuf_succeed_outBytes_past {bytes : List Byte} (s : State) {j : Nat} (hj : j < 16) (hpast : bytes.length ≤ j) :
    readObuf (succeed (outBytes bytes s)) j = 0x00 := by
  rw [readObuf_succeed_outBytes bytes s hj, List.getD_eq_default _ _ hpast]

theorem ilen_eq_twelve_iff {s : State} : s.ilen = 12 ↔ s.ilen.toNat = 12 := BitVec.toNat_inj.symm

theorem ilen_eq_nine_iff {s : State} : s.ilen = 9 ↔ s.ilen.toNat = 9 := BitVec.toNat_inj.symm

/-- GPACK of twelve grid bytes with clear pad bits (R142). -/
theorem exec_gpack_ok {s : State} (hilen : s.ilen.toNat = 12) (hpad : PadBitsClear (readIbuf s)) :
    ∃ t, exec .gpack s = .next t ∧ t = { s with obuf := t.obuf, olen := 9, err := .ok, last := false } ∧
      HoldsGrid (readObuf t) (readIbuf s) ∧ ∀ j < 16, 9 ≤ j → readObuf t j = 0x00 := by
  refine ⟨_, execGpack_ok (ilen_eq_twelve_iff.mpr hilen) ((all_padClear_iff s).mpr hpad),
    succeed_outBytes_eq (packGlyph_length _) s, ?_, ?_⟩
  · exact (holdsGrid_packGlyph (ibufSlice s 0 12)).congr (fun j hj => readObuf_succeed_outBytes _ s (by omega))
      fun r hr => readIbuf_eq_getD_ibufSlice s hr
  · exact fun j hj hpast => readObuf_succeed_outBytes_past s hj ((packGlyph_length _).trans_le hpast)

/-- GUNPACK of nine packed bytes (R143). -/
theorem exec_gunpack_ok {s : State} (hilen : s.ilen.toNat = 9) :
    ∃ t, exec .gunpack s = .next t ∧ t = { s with obuf := t.obuf, olen := 12, err := .ok, last := false } ∧
      HoldsGrid (readIbuf s) (readObuf t) ∧ PadBitsClear (readObuf t) ∧ ∀ j < 16, 12 ≤ j → readObuf t j = 0x00 := by
  have hobuf : ∀ r < 12, readObuf (succeed (outBytes (unpackGlyph (ibufSlice s 0 9)) s)) r =
      (unpackGlyph (ibufSlice s 0 9)).getD r 0 := fun r hr => readObuf_succeed_outBytes _ s (by omega)
  refine ⟨_, execGunpack_ok (ilen_eq_nine_iff.mpr hilen), succeed_outBytes_eq (unpackGlyph_length _) s, ?_, ?_, ?_⟩
  · exact (holdsGrid_unpackGlyph (ibufSlice s 0 9)).congr (fun j hj => readIbuf_eq_getD_ibufSlice s hj) hobuf
  · intro r hr
    rw [hobuf r hr]
    exact padBitsClear_unpackGlyph _ r hr
  · exact fun j hj hpast => readObuf_succeed_outBytes_past s hj ((unpackGlyph_length _).trans_le hpast)

/-- A pad bit that is set fails the check (R142). -/
theorem not_padBitsClear {rows : Nat → Byte} (h : ∃ r < 12, (rows r).getLsbD 0 = true ∨ (rows r).getLsbD 1 = true) :
    ¬ PadBitsClear rows := by
  obtain ⟨r, hr, hset⟩ := h
  intro hclear
  obtain ⟨hzero, hone⟩ := hclear r hr
  simp only [hzero, hone, Bool.false_eq_true, or_self] at hset

/-- Settles O24, branch by branch. -/
theorem gpackRule : Obligations.GpackRule := by
  refine ⟨rfl, rfl, rfl, ?_, ?_, fun _ h => execGpack_error (mt ilen_eq_twelve_iff.mp h)⟩
  · intro s hilen hpad
    obtain ⟨t, hexec, hframe, hgrid, hzeros⟩ := exec_gpack_ok hilen hpad
    exact ⟨t, hexec, hframe, hgrid.columns, hgrid.pairs, hzeros⟩
  · intro s hilen hset
    exact execGpack_pad (ilen_eq_twelve_iff.mpr hilen) (mt (all_padClear_iff s).mp (not_padBitsClear hset))

/-- Settles O25, branch by branch. -/
theorem gunpackRule : Obligations.GunpackRule := by
  refine ⟨rfl, rfl, ?_, fun _ h => execGunpack_error (mt ilen_eq_nine_iff.mp h)⟩
  intro s hilen
  obtain ⟨t, hexec, hframe, hgrid, hpad, hzeros⟩ := exec_gunpack_ok hilen
  exact ⟨t, hexec, hframe, fun c hc r hr => (hgrid.columns c hc r hr).symm,
    fun k hk r hr hlow => (hgrid.pairs k hk r hr hlow).imp Eq.symm Eq.symm, hpad, hzeros⟩

/-- Settles O26: the first output and the second are the two sides of one layout, which each side determines. -/
theorem glyphRoundTrip : Obligations.GlyphRoundTrip := by
  constructor
  · intro s hs hpad
    obtain ⟨t, hpack, ht, hgrid, -⟩ := exec_gpack_ok hs hpad
    refine ⟨t, hpack, congrArg (·.olen.toNat) ht, fun u hu hcopy => ?_⟩
    obtain ⟨v, hunpack, hv, hgrid', hpad', -⟩ := exec_gunpack_ok hu
    have hsame : HoldsGrid (readIbuf u) (readIbuf s) := hgrid.congr hcopy fun _ _ => rfl
    exact ⟨v, hunpack, congrArg (·.olen.toNat) hv, hsame.rows_unique hgrid' hpad hpad'⟩
  · intro s hs
    obtain ⟨t, hunpack, ht, hgrid, hpad, -⟩ := exec_gunpack_ok hs
    refine ⟨t, hunpack, congrArg (·.olen.toNat) ht, fun u hu hcopy => ?_⟩
    have hpad' : PadBitsClear (readIbuf u) := fun r hr => by rw [hcopy r hr]; exact hpad r hr
    obtain ⟨v, hpack, hv, hgrid', -⟩ := exec_gpack_ok hu hpad'
    have hsame : HoldsGrid (readIbuf s) (readIbuf u) := hgrid.congr (fun _ _ => rfl) hcopy
    exact ⟨v, hpack, congrArg State.err hv, congrArg (·.olen.toNat) hv, hsame.packed_unique hgrid'⟩

end Sys2Proof.Machine
end

section
/-! Frames and commands (R160 to R171): the block of a frame byte by byte, and each operation of the two groups as one
block put out, plain or encrypted. -/

namespace Sys2Proof.Machine

/-! The frame (R160). -/

/-- The block that carries a payload. -/
def frameBlock (p : List Byte) : Block := blockOfBytes (frameBytes p)

@[simp] theorem putBlock_obuf (b : Block) (s : State) : (putBlock b s).obuf = b := rfl

section
variable {t : State} {p : List Byte}

theorem readObuf_zero_of_frameBlock (h : t.obuf = frameBlock p) (hlen : p.length ≤ 15) :
    (readObuf t 0).toNat = p.length := by
  rw [readObuf_of_obuf h 0 (by decide), frameBytes_zero, BitVec.toNat_ofNat]
  omega

theorem readObuf_payload_of_frameBlock (h : t.obuf = frameBlock p) (hlen : p.length ≤ 15) {k : Nat} (hk : k < p.length) :
    readObuf t (k + 1) = p.getD k 0 := by
  have hlt : k + 1 < 16 := by omega
  rw [readObuf_of_obuf h (k + 1) hlt, frameBytes_payload p k hk]

theorem readObuf_pad_of_frameBlock (h : t.obuf = frameBlock p) {k : Nat} (hk : k < 15) (hpad : p.length ≤ k) :
    readObuf t (k + 1) = 0x00 := by
  rw [readObuf_of_obuf h (k + 1) (by omega), frameBytes_pad p k hpad]

end

theorem succeed_outBytes_frameBytes {p : List Byte} (hlen : p.length ≤ 15) (s : State) :
    succeed (outBytes (frameBytes p) s) = putBlock (frameBlock p) s :=
  succeed_outBytes_of_length (frameBytes_length p hlen) s

theorem succeed_outBytes_encryptBytes (p : List Byte) (s : State) :
    succeed (outBytes (Aes.encryptBytes s.key (frameBytes p)) s) = putBlock (Aes.encrypt s.key (frameBlock p)) s := by
  rw [succeed_outBytes_of_length (encryptBytes_length ..), blockOfBytes_encryptBytes, frameBlock]

/-! FRAME and FRAMEE (R161, R162). -/

section
variable {s : State}

theorem inputBytes_length (s : State) : (inputBytes s).length = s.ilen.toNat := ibufSlice_length ..

theorem inputBytes_getD {k : Nat} (hk : k < s.ilen.toNat) : (inputBytes s).getD k 0 = readIbuf s k :=
  (readIbuf_eq_getD_ibufSlice s hk).symm

theorem exec_frame_ok (h : s.ilen.toNat ≤ 15) : exec .frame s = .next (putBlock (frameBlock (inputBytes s)) s) :=
  (execFrame_ok h).trans (congrArg _ (succeed_outBytes_frameBytes ((inputBytes_length s).trans_le h) s))

theorem exec_framee_ok (h : s.ilen.toNat ≤ 15) :
    exec .framee s = .next (putBlock (Aes.encrypt s.key (frameBlock (inputBytes s))) s) :=
  (execFramee_ok h).trans (congrArg _ (succeed_outBytes_encryptBytes (inputBytes s) s))

end

/-- Settles O27: the frame of the input bytes, read byte by byte. -/
theorem frameRule : Obligations.FrameRule := by
  refine ⟨rfl, rfl, ?_, fun _ h => execFrame_error h.not_ge⟩
  intro s hilen
  have hcount := inputBytes_length s
  refine ⟨_, exec_frame_ok hilen, rfl, ?_, ?_, ?_⟩
  · rw [readObuf_zero_of_frameBlock (putBlock_obuf ..) (hcount.trans_le hilen), hcount]
  · intro k hk
    rw [readObuf_payload_of_frameBlock (putBlock_obuf ..) (hcount.trans_le hilen) (hk.trans_eq hcount.symm),
      inputBytes_getD hk]
  · exact fun k hk hpad => readObuf_pad_of_frameBlock (putBlock_obuf ..) hk (hcount.trans_le hpad)

/-- Settles O28: both operations put out the frame of the same input bytes, FRAMEE encrypted. -/
theorem frameeRule : Obligations.FrameeRule :=
  ⟨rfl, rfl, fun _ hilen => ⟨_, exec_frame_ok hilen, rfl, exec_framee_ok hilen⟩,
    fun _ h => execFramee_error h.not_ge⟩

/-! The commands (R163 to R170). -/

/-- CMD.*, the form that puts out the wire packet, P = 0 (R73). -/
def wireOp : Command → Instr
  | .ledon => .cmdLedon
  | .ledoff => .cmdLedoff
  | .mode => .cmdMode
  | .speed => .cmdSpeed
  | .light => .cmdLight
  | .dats => .cmdDats
  | .datcp => .cmdDatcp

/-- CMDP.*, the form that puts out the plaintext block, P = 1 (R73). -/
def plainOp : Command → Instr
  | .ledon => .cmdpLedon
  | .ledoff => .cmdpLedoff
  | .mode => .cmdpMode
  | .speed => .cmdpSpeed
  | .light => .cmdpLight
  | .dats => .cmdpDats
  | .datcp => .cmdpDatcp

theorem exec_plainOp (c : Command) (s : State) :
    exec (plainOp c) s = .next (putBlock (frameBlock (commandPayload c s.arg)) s) := by
  have harm : exec (plainOp c) s = .next (commandPlain c s) := by cases c <;> rfl
  have hlen : (commandPayload c s.arg).length ≤ 15 := (commandPayload_length_le c s.arg).trans (by decide)
  rw [harm, commandPlain, commandFrame, succeed_outBytes_frameBytes hlen]

theorem exec_wireOp (c : Command) (s : State) :
    exec (wireOp c) s = .next (putBlock (Aes.encrypt s.key (frameBlock (commandPayload c s.arg))) s) := by
  have harm : exec (wireOp c) s = .next (commandEncrypted c s) := by cases c <;> rfl
  rw [harm, commandEncrypted, commandFrame, succeed_outBytes_encryptBytes]

/-- Both forms of a command from every state, given the bytes of its frame. -/
theorem exec_command (c : Command) {s : State} {b : Block} (h : frameBytes (commandPayload c s.arg) = b.toList) :
    exec (plainOp c) s = .next (putBlock b s) ∧ exec (wireOp c) s = .next (putBlock (Aes.encrypt s.key b) s) := by
  have hblock : frameBlock (commandPayload c s.arg) = b := by rw [frameBlock, h, blockOfBytes_toList]
  rw [← hblock]
  exact ⟨exec_plainOp c s, exec_wireOp c s⟩

theorem loByte_eq_of_toNat {v : Half} {l : Byte} (h : v.toNat % 256 = l.toNat) : loByte v = l := by
  rw [loByte_eq_ofNat, h, BitVec.ofNat_toNat, BitVec.setWidth_eq]

theorem hiByte_eq_of_toNat {v : Half} {h : Byte} (hv : v.toNat / 256 = h.toNat) : hiByte v = h := by
  rw [hiByte_eq_ofNat, hv, BitVec.ofNat_toNat, BitVec.setWidth_eq]

/-- Settles O29: the frame of a bare name does not depend on the state. -/
theorem argumentlessCommands : Obligations.ArgumentlessCommands := by
  refine ⟨rfl, rfl, rfl, rfl, rfl, rfl, fun s => ?_⟩
  exact and_assoc.mp ⟨exec_command .ledon rfl, and_assoc.mp ⟨exec_command .ledoff rfl, exec_command .datcp rfl⟩⟩

/-- Settles O30: the one argument byte is the low byte of ARG. -/
theorem byteArgumentCommands : Obligations.ByteArgumentCommands := by
  refine ⟨rfl, rfl, rfl, rfl, rfl, rfl, fun s a ha => ?_⟩
  obtain rfl := loByte_eq_of_toNat ha
  exact and_assoc.mp ⟨exec_command .mode rfl, and_assoc.mp ⟨exec_command .speed rfl, exec_command .light rfl⟩⟩

/-- Settles O31: the argument bytes are the two halves of ARG, then the two zeros of the payload. -/
theorem datsCommand : Obligations.DatsCommand := by
  refine ⟨rfl, rfl, fun s h l harg => ?_⟩
  obtain rfl : loByte s.arg = l := loByte_eq_of_toNat (by omega)
  obtain rfl : hiByte s.arg = h := hiByte_eq_of_toNat (by omega)
  exact exec_command .dats rfl

/-- The seven commands in the order of their ids (R73). -/
def allCommands : List Command := [.ledon, .ledoff, .mode, .speed, .light, .dats, .datcp]

/-- Settles O32: the two forms of a command put out the same frame, one of them encrypted, and decryption undoes it. -/
theorem wirePacketIsEncryptedBlock : Obligations.WirePacketIsEncryptedBlock := by
  intro p hp s
  obtain ⟨c, -, rfl⟩ : ∃ c ∈ allCommands, (wireOp c, plainOp c) = p := List.mem_map.mp hp
  exact ⟨_, exec_plainOp c s, exec_wireOp c s, Aes.decrypt_encrypt ..⟩

end Sys2Proof.Machine
end

section
/-! The chunk encoder (R190 to R194): CHUNK and CHUNKE are one operation but for the map of the block, and a restarted
cursor followed by `ceil(ILEN/15)` of them puts out the payload piece by piece. -/

namespace Sys2Proof.Machine

open Sys2Proof.Safety

/-! The restart (R191). -/

/-- The state after CRST. -/
def restartCursor (s : State) : State := { s with cpos := 0, ccnt := 0, err := .ok, last := false }

theorem exec_crst (s : State) : exec .crst s = .next (restartCursor s) := rfl

theorem statusEnd_restartCursor (s : State) : statusEnd (restartCursor s) = true ↔ s.ilen.toNat = 0 :=
  (statusEnd_iff _).trans Nat.le_zero

/-- Settles O33: END compares ILEN with the cursor's 0. -/
theorem crstRule : Obligations.CrstRule :=
  ⟨rfl, fun s => ⟨_, exec_crst s, rfl, statusEnd_restartCursor s⟩⟩

/-! One chunk (R192, R193). -/

/-- The state after a chunk that puts out the block `b`. -/
def putChunk (b : Block) (s : State) : State :=
  { s with
    obuf := b, olen := 16, cpos := s.cpos + BitVec.ofNat 16 (chunkLen s), ccnt := s.ccnt + 1, err := .ok,
    last := decide (s.cpos + BitVec.ofNat 16 (chunkLen s) = s.ilen) }

@[simp] theorem putChunk_obuf (b : Block) (s : State) : (putChunk b s).obuf = b := rfl

/-- Emitting sixteen bytes is emitting their block (R9). -/
theorem emitChunk_of_length {bytes : List Byte} (hlen : bytes.length = 16) (s : State) :
    emitChunk bytes s = putChunk (blockOfBytes bytes) s := by
  rw [emitChunk, outBytes, hlen]
  rfl

section
variable {s : State}

theorem putChunk_cpos (b : Block) (hc : s.cpos.toNat < s.ilen.toNat) :
    (putChunk b s).cpos.toNat = s.cpos.toNat + chunkLen s := cpos_add_chunkLen s hc

theorem putChunk_last_iff (b : Block) (hc : s.cpos.toNat < s.ilen.toNat) :
    (putChunk b s).last = true ↔ s.ilen.toNat ≤ s.cpos.toNat + 15 := emitChunk_last_iff [] hc

theorem chunkData_length_le (s : State) : (chunkData s).length ≤ 15 := (chunkData_length s).trans_le (chunkLen_le s)

theorem chunkData_getD {k : Nat} (hk : k < chunkLen s) : (chunkData s).getD k 0 = readIbuf s (s.cpos.toNat + k) :=
  ibufSlice_getD _ _ _ _ _ hk

/-- The next chunk is what of the payload stands at the cursor, up to 15 bytes (R192). -/
theorem chunkData_eq_take_drop (s : State) : chunkData s = ((inputBytes s).drop s.cpos.toNat).take 15 := by
  apply List.ext_getElem
  · simp [inputBytes_length, chunkLen, Config.maxPayload]
  · intro k hleft hright
    simp [chunkData, inputBytes, ibufSlice]

end

/-- The operation `i` emits the next chunk's frame mapped by `wire` under KEY, and is EXHAUSTED past the last one. -/
structure EmitsChunks (i : Instr) (wire : Block → Block → Block) : Prop where
  emit : ∀ s : State, s.cpos.toNat < s.ilen.toNat →
    exec i s = .next (putChunk (wire s.key (frameBlock (chunkData s))) s)
  exhausted : ∀ s : State, s.ilen.toNat ≤ s.cpos.toNat → exec i s = .next (raiseError .exhausted s)

theorem chunk_emitsChunks : EmitsChunks .chunk fun _ b => b where
  emit s hc := (execChunk_ok hc).trans
    (congrArg _ (emitChunk_of_length (frameBytes_length _ (chunkData_length_le s)) s))
  exhausted _ := execChunk_error

theorem chunke_emitsChunks : EmitsChunks .chunke Aes.encrypt where
  emit s hc := by
    have hexec : exec .chunke s = _ := execChunke_ok hc
    rw [hexec, emitChunk_of_length (encryptBytes_length ..), blockOfBytes_encryptBytes, frameBlock]
  exhausted _ := execChunke_error

/-- Settles O34: the frame of the next chunk's data, read byte by byte. -/
theorem chunkRule : Obligations.ChunkRule := by
  refine ⟨rfl, rfl, fun s hc => ?_, chunk_emitsChunks.exhausted⟩
  have hcount := chunkData_length s
  have hlen := chunkData_length_le s
  refine ⟨_, chunkLen s, rfl, chunk_emitsChunks.emit s hc, rfl, ?_, ?_, ?_, putChunk_cpos _ hc, decide_eq_true_iff⟩
  · rw [readObuf_zero_of_frameBlock (putChunk_obuf ..) hlen, hcount]
  · intro k hk
    rw [readObuf_payload_of_frameBlock (putChunk_obuf ..) hlen (hk.trans_eq hcount.symm), chunkData_getD hk]
  · exact fun k hk hpad => readObuf_pad_of_frameBlock (putChunk_obuf ..) hk (hcount.trans_le hpad)

/-- Settles O35: both operations put out the frame of the same data and move the one cursor, CHUNKE encrypted. -/
theorem chunkeRule : Obligations.ChunkeRule :=
  ⟨rfl, rfl, fun s hc => ⟨_, chunk_emitsChunks.emit s hc, rfl, chunke_emitsChunks.emit s hc⟩,
    chunke_emitsChunks.exhausted⟩

/-! The stream (R194). -/

/-- Chunk number `k`, from 0, of a payload. -/
def piece (p : List Byte) (k : Nat) : List Byte := (p.drop (15 * k)).take 15

theorem piece_length_le (p : List Byte) (k : Nat) : (piece p k).length ≤ 15 := List.length_take_le ..

theorem piece_append_drop (p : List Byte) (k : Nat) : piece p k ++ p.drop (15 * (k + 1)) = p.drop (15 * k) := by
  rw [Nat.mul_succ, ← List.drop_drop, piece, List.take_append_drop]

theorem lt_chunkCount_iff {k l : Nat} : k < chunkCount l ↔ 15 * k < l := by
  rw [chunkCount]
  omega

theorem le_mul_chunkCount (l : Nat) : l ≤ 15 * chunkCount l := Nat.not_lt.mp (mt lt_chunkCount_iff.mpr (lt_irrefl _))

/-- The state `u` stands after `k` chunks of the payload of `s`. -/
structure AfterChunks (wire : Block → Block → Block) (s : State) (k : Nat) (u : State) : Prop where
  ilen : u.ilen = s.ilen
  key : u.key = s.key
  input : inputBytes u = inputBytes s
  err : u.err = .ok
  ccnt : u.ccnt.toNat = k
  cpos : u.cpos.toNat = min (15 * k) s.ilen.toNat
  obuf : 0 < k → u.obuf = wire s.key (frameBlock (piece (inputBytes s) (k - 1)))
  last : 0 < k → (u.last = true ↔ k = chunkCount s.ilen.toNat)

theorem afterChunks_restartCursor (wire : Block → Block → Block) (s : State) :
    AfterChunks wire s 0 (restartCursor s) where
  ilen := rfl
  key := rfl
  input := rfl
  err := rfl
  ccnt := rfl
  cpos := (Nat.zero_min _).symm
  obuf := nofun
  last := nofun

section
variable {i : Instr} {wire : Block → Block → Block} {s u : State} {k : Nat}

/-- Before the last chunk the cursor stands at a multiple of 15, inside the payload. -/
theorem AfterChunks.cpos_of_lt (h : AfterChunks wire s k u) (hk : 15 * k < s.ilen.toNat) : u.cpos.toNat = 15 * k :=
  h.cpos.trans (Nat.min_eq_left hk.le)

/-- After the last chunk nothing is left. -/
theorem AfterChunks.ilen_le_cpos (h : AfterChunks wire s (chunkCount s.ilen.toNat) u) :
    u.ilen.toNat ≤ u.cpos.toNat := by
  rw [h.ilen, h.cpos]
  exact le_min (le_mul_chunkCount _) le_rfl

/-- While a chunk is left, the operation emits it. -/
theorem AfterChunks.exec_succ (h : AfterChunks wire s k u) (hi : EmitsChunks i wire) (hk : k < chunkCount s.ilen.toNat) :
    ∃ t, exec i u = .next t ∧ AfterChunks wire s (k + 1) t := by
  have hleft : 15 * k < s.ilen.toNat := lt_chunkCount_iff.mp hk
  have hpos : u.cpos.toNat = 15 * k := h.cpos_of_lt hleft
  have hilen : u.ilen.toNat = s.ilen.toNat := congrArg _ h.ilen
  have hc : u.cpos.toNat < u.ilen.toNat := by omega
  have hdata : chunkData u = piece (inputBytes s) k := by rw [chunkData_eq_take_drop, h.input, hpos, piece]
  refine ⟨_, hi.emit u hc, h.ilen, h.key, h.input, rfl, ?ccnt, ?cpos, fun _ => ?obuf, fun _ => ?last⟩
  case ccnt =>
    have hcnt : u.ccnt.toNat + 1 = k + 1 := congrArg (· + 1) h.ccnt
    have hlt := s.ilen.isLt
    exact (BitVec.toNat_add_of_lt (show u.ccnt.toNat + 1 < 2 ^ 16 by omega)).trans hcnt
  case cpos =>
    rw [putChunk_cpos _ hc, chunkLen, Config.maxPayload]
    omega
  case obuf =>
    rw [putChunk_obuf, hdata, h.key, Nat.add_sub_cancel]
  case last =>
    have hnext := lt_chunkCount_iff (k := k + 1) (l := s.ilen.toNat)
    rw [putChunk_last_iff _ hc]
    omega

/-- `n` more operations, while that many chunks are left, emit `n` more chunks. -/
theorem AfterChunks.repeatOp (h : AfterChunks wire s k u) (hi : EmitsChunks i wire) {n : Nat}
    (hn : k + n ≤ chunkCount s.ilen.toNat) :
    ∃ t, Safety.repeatOp i n u = some t ∧ AfterChunks wire s (k + n) t := by
  induction n generalizing k u with
  | zero => exact ⟨u, rfl, h⟩
  | succ n ih =>
    obtain ⟨t, hexec, ht⟩ := h.exec_succ hi (by omega)
    obtain ⟨v, hrun, hv⟩ := ih ht (by omega)
    refine ⟨v, ?_, by rwa [show k + (n + 1) = k + 1 + n by omega]⟩
    rw [Safety.repeatOp, hexec]
    exact hrun

/-- The operations that emit the chunks that are left carry what is left of the payload. -/
theorem AfterChunks.streamData (h : AfterChunks wire s k u) (hi : EmitsChunks i wire) {plain : Block → Block}
    (hplain : ∀ b, plain (wire s.key b) = b) {n : Nat} (hn : k + n = chunkCount s.ilen.toNat) :
    Safety.streamData i plain n u = (inputBytes s).drop (15 * k) := by
  induction n generalizing k u with
  | zero =>
    obtain rfl : k = chunkCount s.ilen.toNat := hn
    exact (List.drop_of_length_le ((inputBytes_length s).trans_le (le_mul_chunkCount _))).symm
  | succ n ih =>
    obtain ⟨t, hexec, ht⟩ := h.exec_succ hi (by omega)
    have hdata : frameData (plain t.obuf) = piece (inputBytes s) k := by
      rw [ht.obuf k.succ_pos, hplain, frameBlock, frameData_frameBytes _ (piece_length_le ..), Nat.add_sub_cancel]
    rw [Safety.streamData, hexec, ← piece_append_drop, ← ih ht (by omega), ← hdata]
    exact congrArg (· ++ _) (if_pos ht.err)

/-- From the restarted cursor: the chunks one by one, and no more after the last. -/
theorem restartCursor_repeatOp (s : State) (hi : EmitsChunks i wire) (hk : k ≤ chunkCount s.ilen.toNat) :
    ∃ u, repeatOp i k (restartCursor s) = some u ∧ AfterChunks wire s k u := by
  have h := (afterChunks_restartCursor wire s).repeatOp hi (n := k) (by omega)
  rwa [Nat.zero_add] at h

/-- From the restarted cursor, all chunks carry all of the payload. -/
theorem restartCursor_streamData (s : State) (hi : EmitsChunks i wire) {plain : Block → Block}
    (hplain : ∀ b, plain (wire s.key b) = b) :
    streamData i plain (chunkCount s.ilen.toNat) (restartCursor s) = inputBytes s :=
  (afterChunks_restartCursor wire s).streamData hi hplain (Nat.zero_add _)

end

/-- Settles O36: the states after `k` chunks, and the pieces put together. -/
theorem chunkStreamIsSplit : Obligations.ChunkStreamIsSplit := by
  refine fun s => ⟨_, exec_crst s, fun k hk => ?_, ?_, restartCursor_streamData s chunk_emitsChunks fun _ => rfl⟩
  · obtain ⟨u, hrun, hu⟩ := restartCursor_repeatOp s chunk_emitsChunks hk
    refine ⟨u, hrun, hu.err, hu.ccnt, hu.cpos, fun hpos => ⟨?_, hu.last hpos⟩⟩
    rw [hu.obuf hpos]
    exact frameData_frameBytes _ (piece_length_le ..)
  · obtain ⟨u, hrun, hu⟩ := restartCursor_repeatOp s chunk_emitsChunks le_rfl
    exact ⟨u, _, hrun, (statusEnd_iff u).mpr hu.ilen_le_cpos, chunk_emitsChunks.exhausted u hu.ilen_le_cpos, rfl⟩

/-- Settles O37: the same stream, each block undone by the decryption under KEY (R115). -/
theorem encryptedStreamCarriesPayload : Obligations.EncryptedStreamCarriesPayload := by
  intro s
  obtain ⟨u, hrun, hu⟩ := restartCursor_repeatOp s chunke_emitsChunks le_rfl
  exact ⟨_, exec_crst s, restartCursor_streamData s chunke_emitsChunks (Aes.decrypt_encrypt s.key), u, _, hrun, hu.ccnt,
    chunke_emitsChunks.exhausted u hu.ilen_le_cpos, rfl⟩

end Sys2Proof.Machine
end

section
/-! NOP (R210), as an operation and as the OPR write that performs it. -/

namespace Sys2Proof.Machine

theorem exec_nop (s : State) : exec .nop s = .next { s with err := .ok, last := false } := rfl

/-- A write to address 0 is the OPR write (R53). -/
theorem hostWrite_zero (v : Byte) (s : State) : hostWrite 0x00000 v s = performOpcode v s := if_pos rfl

/-- Writing an operation's byte to OPR performs that operation after OPR is set (R23, R70, R71). -/
theorem hostWrite_encodeByte (i : Instr) (s : State) :
    hostWrite 0x00000 (encodeByte i) s = exec i { s with opr := encodeByte i } :=
  (hostWrite_zero _ s).trans
    (performOpcode_of_decode (decode_cons_eq_ok_iff.mpr ⟨decodeByte_encodeByte i, rfl⟩) s)

/-- Settles O39: 0x00 is NOP's byte, so its write is NOP after OPR is set. -/
theorem nopRule : Obligations.NopRule := by
  have hbyte : encodeByte .nop = 0x00 := rfl
  refine ⟨congrArg (fun b => [b]) hbyte, exec_nop, fun s => ?_⟩
  rw [← hbyte, hostWrite_encodeByte, exec_nop]

end Sys2Proof.Machine
end

section
/-! Errors (R220 to R222): what an operation that reports one changes, and which operation reports which. -/

namespace Sys2Proof.Machine

/-! An error changes the status alone, and the status before an operation does not matter. -/

/-- Of the effects of an operation only `raise Error` leaves ERR other than 0, and it writes nothing but ERR and LAST
(R221). -/
theorem OpEffect.eq_of_err_ne_ok {moves outputs : Bool} {s t : State} (h : OpEffect moves outputs s t)
    (herr : t.err ≠ .ok) : t = { s with err := t.err, last := false } := by
  cases h with
  | error e => rfl
  | status | output | restart | chunk => exact absurd rfl herr

/-- The state with another ERR and LAST. -/
def State.withStatus (e : ErrCode) (l : Bool) (s : State) : State := { s with err := e, last := l }

/-- No guard and no output of an operation names ERR or LAST, and each of its branches writes both (R33, R221). -/
theorem exec_withStatus (i : Instr) (s : State) (e : ErrCode) (l : Bool) : exec i (s.withStatus e l) = exec i s := by
  cases i <;> rfl

/-- An OPR write, whatever its byte selects, does not depend on the ERR and LAST before it (R221). -/
theorem performOpcode_withStatus (v : Byte) (s : State) (e : ErrCode) (l : Bool) :
    performOpcode v (s.withStatus e l) = performOpcode v s := by
  cases hdec : decode [v] with
  | ok decoded =>
    obtain ⟨i, rest⟩ := decoded
    rw [performOpcode_of_decode hdec, performOpcode_of_decode hdec]
    exact exec_withStatus i { s with opr := v } e l
  | error r =>
    rw [performOpcode_of_reserved hdec, performOpcode_of_reserved hdec]
    rfl

/-- Settles O40, from the effects that an OPR write can have. -/
theorem errorsChangeOnlyStatus : Obligations.ErrorsChangeOnlyStatus := by
  constructor
  · intro v s
    obtain ⟨t, moves, outputs, ht, heff⟩ := performOpcode_effect v s
    exact ⟨t, (hostWrite_zero v s).trans ht, heff.eq_of_err_ne_ok⟩
  · intro v s e l
    rw [hostWrite_zero, hostWrite_zero]
    exact performOpcode_withStatus v s e l

/-! Which operation reports which error. -/

/-- The outcome goes on, with ERR as given. -/
def GoesOnWithErr (e : ErrCode) (o : Host.Outcome State Fault Refusal) : Prop := ∃ t, o = .next t ∧ t.err = e

theorem GoesOnWithErr.next {e : ErrCode} {t : State} (h : t.err = e) : GoesOnWithErr e (.next t) := ⟨t, rfl, h⟩

/-- A guard of an operation decides between the errors of its branches. -/
theorem GoesOnWithErr.ite {c c' : Prop} [Decidable c] [Decidable c'] (hc : c ↔ c') {e e' : ErrCode}
    {o o' : Host.Outcome State Fault Refusal} (h : GoesOnWithErr e o) (h' : GoesOnWithErr e' o') :
    GoesOnWithErr (if c' then e else e') (if c then o else o') := by
  simp only [hc]
  split
  · exact h
  · exact h'

/-- Some grid byte in IBUF has a pad bit set (R142). -/
abbrev padBitSet (s : State) : Prop := ∃ r < 12, (readIbuf s r).getLsbD 0 = true ∨ (readIbuf s r).getLsbD 1 = true

/-- GPACK's check passes exactly when no pad bit is set. -/
theorem all_padClear_iff_not_padBitSet (s : State) : (ibufSlice s 0 12).all padClear = true ↔ ¬ padBitSet s := by
  rw [all_padClear_iff]
  refine ⟨fun hclear hset => not_padBitsClear hset hclear, fun h r hr => ?_⟩
  simpa using fun hset => h ⟨r, hr, hset⟩

/-- ERR after an operation: its checks in the order in which it makes them (R220, R222). -/
def reportedErr (s : State) : Instr → ErrCode
  | .enc | .dec => if s.ilen.toNat = 16 then .ok else .blockLen
  | .gpack => if s.ilen.toNat = 12 then if ¬ padBitSet s then .ok else .glyphPad else .glyphLen
  | .gunpack => if s.ilen.toNat = 9 then .ok else .glyphLen
  | .frame | .framee => if s.ilen.toNat ≤ 15 then .ok else .tooLarge
  | .chunk | .chunke => if s.ilen.toNat ≤ s.cpos.toNat then .exhausted else .ok
  | .nop | .crst => .ok
  | .cmdLedon | .cmdLedoff | .cmdMode | .cmdSpeed | .cmdLight | .cmdDats | .cmdDatcp => .ok
  | .cmdpLedon | .cmdpLedoff | .cmdpMode | .cmdpSpeed | .cmdpLight | .cmdpDats | .cmdpDatcp => .ok

theorem exec_reportedErr (i : Instr) (s : State) : GoesOnWithErr (reportedErr s i) (exec i s) := by
  cases i with
  | nop | crst => exact .next rfl
  | enc | dec => exact .ite ilen_eq_sixteen_iff (.next rfl) (.next rfl)
  | gpack =>
    exact .ite ilen_eq_twelve_iff (.ite (all_padClear_iff_not_padBitSet s) (.next rfl) (.next rfl)) (.next rfl)
  | gunpack => exact .ite ilen_eq_nine_iff (.next rfl) (.next rfl)
  | frame | framee | chunk | chunke => exact .ite Iff.rfl (.next rfl) (.next rfl)
  | cmdLedon | cmdLedoff | cmdMode | cmdSpeed | cmdLight | cmdDats | cmdDatcp => exact .next rfl
  | cmdpLedon | cmdpLedoff | cmdpMode | cmdpSpeed | cmdpLight | cmdpDats | cmdpDatcp => exact .next rfl

/-- The error `e` has the causes of R220: it is each error exactly when the operation is one that reports it and its
check fails, and it is never ILLEGAL. -/
def HasCauses (i : Instr) (s : State) (e : ErrCode) : Prop :=
  (e = .blockLen ↔ (i = .enc ∨ i = .dec) ∧ s.ilen.toNat ≠ 16) ∧
  (e = .tooLarge ↔ (i = .frame ∨ i = .framee) ∧ 15 < s.ilen.toNat) ∧
  (e = .glyphLen ↔ (i = .gpack ∧ s.ilen.toNat ≠ 12) ∨ (i = .gunpack ∧ s.ilen.toNat ≠ 9)) ∧
  (e = .glyphPad ↔ i = .gpack ∧ s.ilen.toNat = 12 ∧ padBitSet s) ∧
  (e = .exhausted ↔ (i = .chunk ∨ i = .chunke) ∧ s.ilen.toNat ≤ s.cpos.toNat) ∧ e ≠ .illegal

theorem reportedErr_hasCauses (i : Instr) (s : State) : HasCauses i s (reportedErr s i) := by
  cases i with
  | nop | crst => simp [HasCauses, reportedErr]
  | enc | dec => by_cases h : s.ilen.toNat = 16 <;> simp [HasCauses, reportedErr, h]
  | gpack =>
    by_cases h : s.ilen.toNat = 12
    · by_cases hpad : padBitSet s <;> simp [HasCauses, reportedErr, h, hpad]
    · simp [HasCauses, reportedErr, h]
  | gunpack => by_cases h : s.ilen.toNat = 9 <;> simp [HasCauses, reportedErr, h]
  | frame | framee =>
    rcases Nat.lt_or_ge 15 s.ilen.toNat with h | h
    · simp [HasCauses, reportedErr, h, h.not_ge]
    · simp [HasCauses, reportedErr, h, h.not_gt]
  | chunk | chunke => by_cases h : s.ilen.toNat ≤ s.cpos.toNat <;> simp [HasCauses, reportedErr, h]
  | cmdLedon | cmdLedoff | cmdMode | cmdSpeed | cmdLight | cmdDats | cmdDatcp => simp [HasCauses, reportedErr]
  | cmdpLedon | cmdpLedoff | cmdpMode | cmdpSpeed | cmdpLight | cmdpDats | cmdpDatcp => simp [HasCauses, reportedErr]

/-- Every operation goes on with an error that has the causes of R220. -/
theorem exec_hasCauses (i : Instr) (s : State) : ∃ t, exec i s = .next t ∧ HasCauses i s t.err := by
  obtain ⟨t, ht, herr⟩ := exec_reportedErr i s
  exact ⟨t, ht, herr ▸ reportedErr_hasCauses i s⟩

/-- ILLEGAL is left to the OPR writes that select no operation (R211). -/
theorem performOpcode_illegal_iff (v : Byte) (s : State) :
    ∃ t, performOpcode v s = .next t ∧ (t.err = .illegal ↔ ∃ r, decode [v] = .error r) := by
  cases hdec : decode [v] with
  | ok decoded =>
    obtain ⟨i, rest⟩ := decoded
    obtain ⟨t, ht, -, -, -, -, -, hlegal⟩ := exec_hasCauses i { s with opr := v }
    exact ⟨t, (performOpcode_of_decode hdec s).trans ht, iff_of_false hlegal nofun⟩
  | error r => exact ⟨_, performOpcode_of_reserved hdec s, iff_of_true rfl ⟨r, rfl⟩⟩

/-- An OPR write leaves its byte in OPR, and ILEN as it was (R23, R25). -/
theorem performOpcode_opr_ilen {v : Byte} {s t : State} (h : performOpcode v s = .next t) :
    t.opr = v ∧ t.ilen = s.ilen := by
  obtain ⟨u, moves, outputs, hu, heff⟩ := performOpcode_effect v s
  obtain rfl : u = t := Host.Outcome.next.inj (hu.symm.trans h)
  obtain ⟨hopr, hilen, -⟩ := heff.frame
  exact ⟨hopr, hilen⟩

/-- Settles O41: the causes operation by operation, and ILLEGAL by whether the byte decodes. -/
theorem errorCodesAndPriority : Obligations.ErrorCodesAndPriority := by
  refine ⟨exec_hasCauses, fun v s => ?_, rfl, rfl, rfl, rfl, rfl, rfl, rfl⟩
  obtain ⟨t, ht, hillegal⟩ := performOpcode_illegal_iff v s
  obtain ⟨hopr, hilen⟩ := performOpcode_opr_ilen ht
  exact ⟨t, (hostWrite_zero v s).trans ht, hillegal, hopr, hilen, t.err.code_le⟩

end Sys2Proof.Machine
end

section
/-! Another KEY (R231): the plaintext operations and the host's reads do not see it. -/

namespace Sys2Proof.Machine

/-- The state of the same block with another KEY. -/
def State.withKey (K : Block) (s : State) : State := { s with key := K }

/-- An operation outside R231's readers of KEY does the same under every KEY: its guards and its output do not name it. -/
theorem exec_withKey_of_not_readsKey {i : Instr} (h : Safety.readsKey i = false) (s : State) (K : Block) :
    GoesOnUnder (State.withKey K) (exec i s) (exec i (s.withKey K)) := by
  cases i with
  | nop | crst => exact .next rfl
  | gunpack | frame | chunk => exact .ite (.next rfl) (.next rfl)
  | gpack => exact .ite (.ite (.next rfl) (.next rfl)) (.next rfl)
  | cmdpLedon | cmdpLedoff | cmdpMode | cmdpSpeed | cmdpLight | cmdpDats | cmdpDatcp => exact .next rfl
  | enc | dec | framee | chunke => exact absurd h (by decide)
  | cmdLedon | cmdLedoff | cmdMode | cmdSpeed | cmdLight | cmdDats | cmdDatcp => exact absurd h (by decide)

/-- KEY has no address: no register, OBUF byte or IBUF byte that a read returns is part of it (R31, R53). -/
theorem hostRead_withKey (s : State) (K : Block) (a : HostAddr) : hostRead (s.withKey K) a = hostRead s a :=
  hostRead_eq_of_parts (fun _ => rfl) rfl fun _ => rfl

/-- Settles O44, for every other KEY by name. -/
theorem plaintextIgnoresKey : Obligations.PlaintextIgnoresKey :=
  ⟨fun _ => exec_withKey_of_not_readsKey, hostRead_withKey⟩

end Sys2Proof.Machine
end

section
/-! Reset and hazards (R250 to R256): the platform's events as steps, the two bytes of a 16-bit register in either
order, and an operation between two chunks. -/

namespace Sys2Proof.Machine

/-! The platform's events (R250, R251, R236). -/

/-- STATUS reads 0x20 after reset: END alone (R35). -/
theorem statusByte_resetBlock (s : State) : statusByte (resetBlock s) = 0x20 := by
  rw [statusByte, statusEnd_resetBlock, resetBlock_last, resetBlock_err]
  decide

/-- Settles O5: the step is the reset (R250), and then the host goes on to its next item. -/
theorem platformResetStep : Obligations.PlatformResetStep := by
  intro s hitem
  have hstep : step s = .next (advanceHost (resetBlock s)) := step_of_currentItem hitem
  exact ⟨_, hstep, rfl, rfl, rfl, rfl, rfl, rfl, readObuf_resetBlock s, rfl, rfl, statusByte_resetBlock s, rfl,
    readIbuf_congr rfl rfl, rfl, rfl, rfl⟩

/-- A power cycle leaves no byte of IBUF written: each reads as the draw of the new power-up (R251). -/
theorem readIbuf_powerCycleBlock (s : State) (k : Nat) :
    readIbuf (powerCycleBlock s) k = Config.ibufDraw (s.powerUps + 1) k := rfl

/-- Settles O6: the registers are those of a reset, and IBUF, emptied, reads as written only where it is written. -/
theorem powerCycleFreesIbuf : Obligations.PowerCycleFreesIbuf := by
  intro s hitem
  have hstep : step s = .next (advanceHost (powerCycleBlock s)) := step_of_currentItem hitem
  have hdraw := readIbuf_powerCycleBlock s
  exact ⟨_, hstep, hdraw, rfl, rfl, rfl, rfl, rfl, rfl, readObuf_resetBlock s, rfl, rfl, rfl,
    fun k v => ⟨readIbuf_writeIbuf_self _ k v, fun j hj => (readIbuf_writeIbuf_other _ k j v hj).trans (hdraw j)⟩⟩

/-! The two bytes of a 16-bit register (R54, R255). -/

/-- A 16-bit register is big-endian in its two bytes (R54). -/
theorem half_toNat (v : Half) : v.toNat = 256 * (hiByte v).toNat + (loByte v).toNat := by
  rw [hiByte_eq_ofNat, loByte_eq_ofNat, BitVec.toNat_ofNat, BitVec.toNat_ofNat]
  omega

/-- The high byte's write leaves the low byte's value (R255). -/
theorem setHiByte_toNat (v : Half) (h : Byte) : (setHiByte v h).toNat = 256 * h.toNat + v.toNat % 256 := by
  rw [half_toNat, hiByte_setHiByte, loByte_setHiByte, loByte_eq_ofNat, BitVec.toNat_ofNat]
  omega

/-- The low byte's write leaves the high byte's value (R255). -/
theorem setLoByte_toNat (v : Half) (l : Byte) : (setLoByte v l).toNat = 256 * (v.toNat / 256) + l.toNat := by
  rw [half_toNat, hiByte_setLoByte, loByte_setLoByte, hiByte_eq_ofNat, BitVec.toNat_ofNat]
  omega

/-- Both bytes written leave nothing of the old value. -/
theorem setLoByte_setHiByte_toNat (v : Half) (h l : Byte) :
    (setLoByte (setHiByte v h) l).toNat = 256 * h.toNat + l.toNat := by
  rw [half_toNat, hiByte_setLoByte, hiByte_setHiByte, loByte_setLoByte]

/-- The two byte writes commute (R255). -/
theorem setHiByte_setLoByte_comm (v : Half) (h l : Byte) :
    setHiByte (setLoByte v l) h = setLoByte (setHiByte v h) l :=
  half_ext (by simp) (by simp)

/-- Settles O15: the byte writes of ILEN, and those of ARG, commute. -/
theorem halvesInEitherOrder : Obligations.HalvesInEitherOrder := by
  intro s h l
  have hilen : hostWrite 0x00002 h { s with ilen := setLoByte s.ilen l } =
      .next { s with ilen := setLoByte (setHiByte s.ilen h) l } := by
    rw [← setHiByte_setLoByte_comm]
    rfl
  have harg : hostWrite 0x00004 h { s with arg := setLoByte s.arg l } =
      .next { s with arg := setLoByte (setHiByte s.arg h) l } := by
    rw [← setHiByte_setLoByte_comm]
    rfl
  exact ⟨⟨_, _, rfl, rfl, setLoByte_setHiByte_toNat .., setHiByte_toNat .., _, rfl, hilen, setLoByte_toNat ..⟩,
    _, _, rfl, rfl, setLoByte_setHiByte_toNat .., setHiByte_toNat .., _, rfl, harg, setLoByte_toNat ..⟩

/-! An operation between two chunks (R256). -/

/-- What CHUNK depends on agrees: ILEN, the cursor, and IBUF (R192). -/
structure SameChunkInput (s t : State) : Prop where
  ilen : t.ilen = s.ilen
  cpos : t.cpos = s.cpos
  ccnt : t.ccnt = s.ccnt
  ibuf : t.ibuf = s.ibuf
  powerUps : t.powerUps = s.powerUps

/-- An operation outside the chunk group leaves all that CHUNK depends on (R66, R256). -/
theorem OpEffect.sameChunkInput {moves outputs : Bool} {s t : State} (h : OpEffect moves outputs s t)
    (hm : moves = false) : SameChunkInput s t := by
  obtain ⟨-, hilen, -, hibuf, hpower, -⟩ := h.frame
  obtain ⟨hcpos, hccnt⟩ := h.cursor_eq hm
  exact ⟨hilen, hcpos, hccnt, hibuf, hpower⟩

section
variable {s t : State}

theorem SameChunkInput.chunkLen_eq (h : SameChunkInput s t) : chunkLen t = chunkLen s := by
  rw [chunkLen, chunkLen, h.ilen, h.cpos]

theorem SameChunkInput.chunkData_eq (h : SameChunkInput s t) : chunkData t = chunkData s := by
  rw [chunkData, chunkData, h.chunkLen_eq, h.cpos, ibufSlice_congr h.ibuf h.powerUps]

end

/-- Settles O38: CHUNK finds the same input, so it emits the same block or is EXHAUSTED in both. -/
theorem otherOperationsSafeBetweenChunks : Obligations.OtherOperationsSafeBetweenChunks := by
  intro i hi s
  obtain ⟨t, hexec, heff⟩ := exec_effect i s
  have hsame := heff.sameChunkInput hi
  rcases Nat.lt_or_ge s.cpos.toNat s.ilen.toNat with hc | hc
  · have hc' : t.cpos.toNat < t.ilen.toNat := by rwa [hsame.cpos, hsame.ilen]
    refine ⟨t, _, _, hexec, chunk_emitsChunks.emit s hc, chunk_emitsChunks.emit t hc', ?_⟩
    rw [hsame.chunkData_eq]
    simp only [putChunk, hsame.cpos, hsame.ccnt, hsame.ilen, hsame.chunkLen_eq, implies_true, and_self]
  · have hc' : t.ilen.toNat ≤ t.cpos.toNat := by rwa [hsame.cpos, hsame.ilen]
    exact ⟨t, _, _, hexec, chunk_emitsChunks.exhausted s hc, chunk_emitsChunks.exhausted t hc',
      hsame.cpos, hsame.ccnt, rfl, rfl, nofun⟩

end Sys2Proof.Machine
end
